-- ==== Sys2Proof/Word.lean ====
section
/-! DEFINITION. Word.lean: the widths of 00_scope.md R5 and R6. Every value is unsigned (R8). -/

namespace Sys2Proof

/-- BYTE_W and CHAR_W: an input byte, or an output character code (R5, R6). -/
abbrev Byte := BitVec 8

/-- PAIR_W: two bytes, the earlier one in the high half (R5, R47). -/
abbrev PairWord := BitVec 16

/-- LEN_W: the byte count N of START (R6, R66). -/
abbrev Length := BitVec 16

/-- REMAIN_W: the pair counter (R6, R25). -/
abbrev PairCount := BitVec 15

/-- CMD_W: one word on IN (R6, R64). -/
abbrev CmdWord := BitVec 18

/-- TOK_W: one word on OUT (R6, R69). -/
abbrev TokWord := BitVec 9

/-- STATUS_W: the read-only status word (R6, R33). -/
abbrev StatusWord := BitVec 32

/-- An index into the consonant ROM (R45). -/
abbrev ConsIndex := BitVec 4

/-- An index into the vowel ROM (R45). -/
abbrev VowIndex := BitVec 2

end Sys2Proof
end

