-- ==== Sys2Proof/Config.lean ====
section
/-! DEFINITION. Config.lean: what an implementation fixes (the contents of the two character ROMs, 10_state.md R29
and R30, with the three configuration fields of 00_scope.md R7), and the one free value (WORD after a RESET step). -/

namespace Sys2Proof

/-- The two parallel lookup tables (10_state.md R29, R30, R31). They stand in State, where no step writes them, so that
a statement over every state holds for every legal value of the three configuration fields (log entry 3). -/
structure Roms where
  /-- ROM_C, indexed by a 4-bit field (R29). -/
  romC : Vector Byte 16
  /-- ROM_V, indexed by a 2-bit field (R30). -/
  romV : Vector Byte 4
  deriving DecidableEq, Repr

namespace Config

/-- The hyphen '-' (R108). PRESUMED: the ASCII codes are the spec's general knowledge, G2 (log entry 4; unsafe). -/
def hyphenCode : Byte := 0x2D

/-- ROM_C9, default 'n' (R7). PRESUMED by the spec (G1), unsafe: log entry 3. -/
def romC9 : Byte := 0x6E

/-- ROM_C11, default 'r' (R7). PRESUMED by the spec (G1), unsafe: log entry 3. -/
def romC11 : Byte := 0x72

/-- ROM_C14, default 'v' (R7). PRESUMED by the spec (G1), unsafe: log entry 3. -/
def romC14 : Byte := 0x76

/-- The consonant table of R29 around three configuration values: b d f g h j k l m _ p _ s t _ z. -/
def consonants (c9 c11 c14 : Byte) : Vector Byte 16 :=
  #v[0x62, 0x64, 0x66, 0x67, 0x68, 0x6A, 0x6B, 0x6C, 0x6D, c9, 0x70, c11, 0x73, 0x74, c14, 0x7A]

/-- The vowel table of R30: a i o u. -/
def vowels : Vector Byte 4 := #v[0x61, 0x69, 0x6F, 0x75]

/-- The two tables with the default configuration of R7. -/
def defaultRoms : Roms := ⟨consonants romC9 romC11 romC14, vowels⟩

/-- The 13 consonant codes that the source's vectors force (R29). -/
def fixedConsonants : List Byte :=
  [0x62, 0x64, 0x66, 0x67, 0x68, 0x6A, 0x6B, 0x6C, 0x6D, 0x70, 0x73, 0x74, 0x7A]

/-- The constraints of R7 on the three configuration values: distinct from each other, from the other 13 consonant
codes, and from the hyphen. -/
abbrev legal (c9 c11 c14 : Byte) : Prop :=
  [c9, c11, c14].Nodup ∧ (∀ c ∈ [c9, c11, c14], c ∉ fixedConsonants) ∧ (∀ c ∈ [c9, c11, c14], c ≠ hyphenCode)

/-- The FREE VALUE of the model: what the n-th RESET step leaves in WORD. The spec gives WORD no reset value (R26, R37,
U1 'any value'), so nothing here can be evaluated or proved of it (log entry 2; safe). -/
opaque freeWord : Nat → PairWord

end Config

/-- ROM contents the spec allows: the forced entries of R29 and R30 and three configuration values that meet R7. -/
abbrev Roms.legal (r : Roms) : Prop :=
  Config.legal (r.romC[9]) (r.romC[11]) (r.romC[14]) ∧
    r = ⟨Config.consonants (r.romC[9]) (r.romC[11]) (r.romC[14]), Config.vowels⟩

end Sys2Proof
end

