-- ==== Sys2Proof/Syntax.lean ====
section
/-! DEFINITION. Syntax.lean: the rows of the opcode map (30_encoding.md R75) as one inductive, and the two kinds of
word that cross a port (R63). -/

namespace Sys2Proof

/-- One constructor per row of spec/opcode_table.json. The first four are words the host offers on IN. The last three
are the tokens the block hands out on OUT: each stands for the EMIT step that emits it (R107). -/
inductive Instr where
  /-- START (R98): begin a conversion of `n` bytes. -/
  | start (n : Length)
  /-- PAIR (R99): the next two bytes, `b0` the earlier. -/
  | pair (b0 b1 : Byte)
  /-- ILLEGAL with OP = 0b00 (R100); `data` is ignored. -/
  | illegalOp00 (data : BitVec 16)
  /-- ILLEGAL with OP = 0b11 (R100); `data` is ignored. -/
  | illegalOp11 (data : BitVec 16)
  /-- HYPHEN (R108): hand out CHAR(0x2D) between two syllables. -/
  | hyphen
  /-- CHAR (R109): hand out character `c` of the current syllable. -/
  | char (c : Byte)
  /-- END (R110): hand out the end marker. -/
  | endTok
  deriving DecidableEq, Repr

/-- A token on OUT (R69): a character, the hyphen among them, or the end marker. -/
inductive Token where
  | char (c : Byte)
  | fin
  deriving DecidableEq, Repr

/-- One whole transfer on a port (R53, R63): the port alone tells the format. -/
inductive Transfer where
  /-- IN carries one CMD word. -/
  | cmd (x : CmdWord)
  /-- OUT carries one TOK word. -/
  | tok (t : TokWord)
  deriving DecidableEq, Repr

end Sys2Proof
end

