-- ==== Sys2Proof/WellFormed.lean ====
section
/-! DEFINITION. WellFormed.lean: which terms of Instr are instructions. -/

namespace Sys2Proof

/-- Every DATA value of a command is legal (30_encoding.md R71, R72). A CHAR row's code is not the hyphen's: CHAR(0x2D)
is the HYPHEN row, because the row with the wider mask wins (R75). -/
def Instr.wf : Instr → Bool
  | .start _ => true
  | .pair _ _ => true
  | .illegalOp00 _ => true
  | .illegalOp11 _ => true
  | .hyphen => true
  | .char c => c != Config.hyphenCode
  | .endTok => true

end Sys2Proof
end

