-- ==== Sys2Proof/Decode.lean ====
section
/-! DEFINITION. Decode.lean: decoding and encoding of one transfer (30_encoding.md R63 to R75). Decoding is total and
rejects by name. -/

namespace Sys2Proof

/-- Why a word is no instruction. -/
inductive DecodeError where
  /-- A control token other than END, TOK 0x101 to 0x1FF: reserved and never emitted (R70, R74). -/
  | reservedToken (t : TokWord)
  /-- A number that fits no transfer of the port its size names (R63): more than 18 bits on IN, 9 on OUT. -/
  | notATransfer (nbits w : Nat)
  deriving DecidableEq, Repr

/-- OP, bits [17:16] of a CMD word (R64). -/
def opField (x : CmdWord) : BitVec 2 := x.extractLsb' 16 2

/-- DATA, bits [15:0] of a CMD word (R64). -/
def dataField (x : CmdWord) : BitVec 16 := x.extractLsb' 0 16

/-- B0, DATA[15:8], the earlier byte of a PAIR (R67). -/
def highByte (d : BitVec 16) : Byte := d.extractLsb' 8 8

/-- B1, DATA[7:0], the later byte of a PAIR (R67). -/
def lowByte (d : BitVec 16) : Byte := d.extractLsb' 0 8

/-- The IN decoder, total over all 2^18 words (R73). -/
def decodeCmd (x : CmdWord) : Instr :=
  if opField x = 0b01#2 then .start (dataField x)
  else if opField x = 0b10#2 then .pair (highByte (dataField x)) (lowByte (dataField x))
  else if opField x = 0b00#2 then .illegalOp00 (dataField x)
  else .illegalOp11 (dataField x)

/-- K, bit [8] of a TOK word (R69). -/
def kindBit (t : TokWord) : Bool := t.getLsbD 8

/-- C, bits [7:0] of a TOK word (R69). -/
def codeField (t : TokWord) : Byte := t.extractLsb' 0 8

/-- The OUT decoder, total over all 2^9 words (R74). Among CHAR words, 0x02D is the HYPHEN row (R75). -/
def decodeTok (t : TokWord) : Except DecodeError Instr :=
  if kindBit t = false then
    if codeField t = Config.hyphenCode then .ok .hyphen else .ok (.char (codeField t))
  else if codeField t = 0x00#8 then .ok .endTok
  else .error (.reservedToken t)

/-- Decoding of one transfer: the port selects the format (R63). -/
def decode : Transfer → Except DecodeError Instr
  | .cmd x => .ok (decodeCmd x)
  | .tok t => decodeTok t

/-- The TOK word of a token (R69). -/
def Token.word : Token → TokWord
  | .char c => 0#1 ++ c
  | .fin => 1#1 ++ 0x00#8

/-- A CMD word from its fields (R64). -/
def cmdWord (op : BitVec 2) (d : BitVec 16) : CmdWord := op ++ d

/-- The encoder: the one transfer that an instruction stands for (R64 to R69, R75). -/
def encode : Instr → Transfer
  | .start n => .cmd (cmdWord 0b01#2 n)
  | .pair b0 b1 => .cmd (cmdWord 0b10#2 (b0 ++ b1))
  | .illegalOp00 d => .cmd (cmdWord 0b00#2 d)
  | .illegalOp11 d => .cmd (cmdWord 0b11#2 d)
  | .hyphen => .tok (Token.char Config.hyphenCode).word
  | .char c => .tok (Token.char c).word
  | .endTok => .tok Token.fin.word

/-- The CMD word of an instruction of the IN port. -/
def encodeCmd? (i : Instr) : Option CmdWord :=
  match encode i with
  | .cmd x => some x
  | .tok _ => none

/-- A row of the opcode map: the port, and the word's fixed bits (R75). -/
structure OpcodeRow where
  onIn : Bool
  mask : Nat
  fixed : Nat
  deriving DecidableEq, Repr

/-- The row of R75 that an instruction belongs to. -/
def Instr.row : Instr → OpcodeRow
  | .start _ => ⟨true, 0x30000, 0x10000⟩
  | .pair _ _ => ⟨true, 0x30000, 0x20000⟩
  | .illegalOp00 _ => ⟨true, 0x30000, 0x00000⟩
  | .illegalOp11 _ => ⟨true, 0x30000, 0x30000⟩
  | .hyphen => ⟨false, 0x1FF, 0x02D⟩
  | .char _ => ⟨false, 0x100, 0x000⟩
  | .endTok => ⟨false, 0x1FF, 0x100⟩

/-- A transfer shows a row's fixed bits on the row's port (R75). -/
def OpcodeRow.fits (r : OpcodeRow) : Transfer → Bool
  | .cmd x => r.onIn && (x &&& BitVec.ofNat 18 r.mask) == BitVec.ofNat 18 r.fixed
  | .tok t => !r.onIn && (t &&& BitVec.ofNat 9 r.mask) == BitVec.ofNat 9 r.fixed

/-- The transfer that a table word of `nbits` bits stands for. The port alone tells the format (R63), and the table
gives a row its port's width: 18 bits on IN (three whole bytes), 9 bits on OUT (two). So a size of 9 to 16 bits names
OUT and a larger one IN. A number with a bit above the transfer's width is no transfer (log entry 10). -/
def tableTransfer (nbits w : Nat) : Except DecodeError Transfer :=
  if nbits < 9 then .error (.notATransfer nbits w)
  else if nbits ≤ 16 then
    if w < 2 ^ 9 then .ok (.tok (BitVec.ofNat 9 w)) else .error (.notATransfer nbits w)
  else
    if w < 2 ^ 18 then .ok (.cmd (BitVec.ofNat 18 w)) else .error (.notATransfer nbits w)

/-- Decoding of a table word, with the reason where it is none. -/
def decodeTable (nbits w : Nat) : Except DecodeError Instr :=
  match tableTransfer nbits w with
  | .ok x => decode x
  | .error e => .error e

/-- The instruction the decoder reads from a word numbered as spec/opcode_table.json numbers it. -/
def decodeTableWord (nbits w : Nat) : Option Instr :=
  match decodeTable nbits w with
  | .ok i => some i
  | .error _ => none

end Sys2Proof
end

