-- ==== Sys2Proof/Machine/State.lean ====
section
/-! DEFINITION. Machine/State.lean: the state of the block (10_state.md R20 to R31), the outside world's moves as plain
data (00_scope.md R13), and the state after reset (R37). -/

namespace Sys2Proof.Machine

/-- STATE (R22). The fourth 2-bit value is never held (R22, R36 invariant 8), so the type leaves it out (U3). -/
inductive Mode where
  | idle
  | active
  | error
  deriving DecidableEq, Repr

/-- ERR_CODE (R27). -/
inductive ErrCode where
  | noError
  | invalidInputLength
  | protocolError
  | illegalCommand
  deriving DecidableEq, Repr

/-- The three errors a command can raise (60_exceptions.md R118). -/
inductive Err where
  | invalidInputLength
  | protocolError
  | illegalCommand
  deriving DecidableEq, Repr

/-- Which party moves next (00_scope.md R12, R13). -/
inductive Turn where
  /-- The host offers the word at the head of `inQ`: ACCEPT, if it is enabled (R97). -/
  | accept
  /-- The consumer takes a token: EMIT, if it is enabled (R107). -/
  | emit
  /-- RST is asserted: RESET, enabled in every state (R134). -/
  | reset
  /-- The host takes back the word it offers (R134: 'the host decides whether to withdraw it'). No step of the block. -/
  | withdraw
  deriving DecidableEq, Repr

/-- Why the model stops with a fault. No step of the block faults: its three errors are NEXT states (R119). -/
inductive Fault where
  /-- A consumer received a reserved control token, 0x101 to 0x1FF (30_encoding.md R70, U5). Raised only by
  `receiveToken`, the consumer's reading of a TOK word; the block never emits one. Safe: it stops. -/
  | reservedToken (t : TokWord)
  deriving DecidableEq, Repr

/-- Why the model gives no meaning. -/
inductive Refusal where
  /-- An instruction without a meaning yet. Raised by an arm of exec only; at present by none. Safe: it stops. -/
  | notModelled (mnemonic : String)
  /-- An ACCEPT, an EMIT or a STATUS read after power-on and before the first RESET (70_reset_and_hazards.md R135).
  Raised by the shared operations `onAccept`, `onEmit`, `readStatus` and by the ports. Safe: it stops. -/
  | beforeFirstReset
  deriving DecidableEq, Repr

structure State where
  /-- STATE, 2 bits (R22). -/
  mode : Mode
  /-- SLOT, 3 bits: which token comes next (R23). -/
  slot : BitVec 3
  /-- FIRST, 1 bit (R24). -/
  first : Bool
  /-- REMAIN, 15 bits: the PAIRs still expected (R25). -/
  remain : PairCount
  /-- WORD, 16 bits: the pair word of the current syllable (R26). -/
  word : PairWord
  /-- ERR_CODE, 2 bits (R27). -/
  errCode : ErrCode
  /-- ERR_LEN, 16 bits (R28). -/
  errLen : Length
  /-- ROM_C and ROM_V (R29, R30). No step writes them (R31). -/
  roms : Roms
  /-- Whether a RESET has happened since power-on. Until then the registers hold no value (R135), and what their
  fields hold here is read by nothing (log entry 7). -/
  wasReset : Bool
  /-- The host's: the words it offers on IN, the head being the one on the port (R13, R97; log entry 5). -/
  inQ : List CmdWord
  /-- The outside world's: who moves next (R13, U14; log entry 5). -/
  turns : List Turn
  /-- The consumer's: the tokens handed to OUT, oldest first (R11, R20; log entry 5). -/
  out : List Token
  /-- The model's own: how many free values have been drawn (log entry 2). -/
  freeIdx : Nat
  deriving DecidableEq, Repr

/-- The state right after RESET, with nothing offered (R37, R138). WORD has no reset value: the zero is a DESIGN CHOICE
(log entry 1; unsafe), and no statement rests on it. -/
def State.reset : State where
  mode := .idle
  slot := 6
  first := false
  remain := 0
  word := 0
  errCode := .noError
  errLen := 0
  roms := Config.defaultRoms
  wasReset := true
  inQ := []
  turns := []
  out := []
  freeIdx := 0

/-- The state at power-on: the ROMs hold their contents, the registers hold no value (R135, R136). The values standing
in the register fields are never read before a RESET writes them (DESIGN CHOICE, log entry 7; safe). -/
def State.powerOn : State := { State.reset with wasReset := false }

end Sys2Proof.Machine
end

