-- ==== Sys2Proof/Machine/Operands.lean ====
section
/-! DEFINITION. Machine/Operands.lean: operand assembly (30_encoding.md R66 to R68) and the bit-slice multiplexer
(40_datapath.md R79). Every operand is unsigned. -/

namespace Sys2Proof.Machine

/-- N mod 2 = 1: the length violates the even-length precondition (R51, R98). -/
def oddLength (n : Length) : Bool := n.toNat % 2 == 1

/-- N / 2 = N[15:1], the number of pairs; it fits 15 bits (R98). -/
def pairCount (n : Length) : PairCount := n.extractLsb' 1 15

/-- W = B0 ++ B1, the first byte in the high half (20_memory.md R47, R67). -/
def pairWord (b0 b1 : Byte) : PairWord := b0 ++ b1

/-- The five fields of a pair word, most significant first (R48, R79). -/
structure Fields where
  f1 : ConsIndex
  f2 : VowIndex
  f3 : ConsIndex
  f4 : VowIndex
  f5 : ConsIndex
  deriving DecidableEq, Repr

/-- SLICE (R79). -/
def slice (w : PairWord) : Fields where
  f1 := w.extractLsb' 12 4
  f2 := w.extractLsb' 10 2
  f3 := w.extractLsb' 6 4
  f4 := w.extractLsb' 4 2
  f5 := w.extractLsb' 0 4

end Sys2Proof.Machine
end

