-- ==== Sys2Proof/Machine/Datapath.lean ====
section
/-! DEFINITION. Machine/Datapath.lean: the combinational functions of the block (40_datapath.md R80 to R85) and the
pseudo-instruction ENCODE (30_encoding.md R77). All total and pure (R90). -/

namespace Sys2Proof.Machine

/-- CONS_LUT: ROM_C[i] (R80). Every 4-bit index is in range (20_memory.md R46). -/
def cons (r : Roms) (i : ConsIndex) : Byte := r.romC[i.toNat]'(i.isLt)

/-- VOW_LUT: ROM_V[j] (R81). -/
def vow (r : Roms) (j : VowIndex) : Byte := r.romV[j.toNat]'(j.isLt)

/-- The five mapped characters, in slot order (R82). -/
structure Chars where
  c1 : Byte
  c2 : Byte
  c3 : Byte
  c4 : Byte
  c5 : Byte
  deriving DecidableEq, Repr

/-- MAP: both tables applied to the five fields (R82). -/
def mapFields (r : Roms) (w : PairWord) : Chars where
  c1 := cons r (slice w).f1
  c2 := vow r (slice w).f2
  c3 := cons r (slice w).f3
  c4 := vow r (slice w).f4
  c5 := cons r (slice w).f5

/-- CHARMUX: the character of slot `k`, 1 to 5 (R83). Outside 1..5 it has no value: R83 lets a model leave it undefined
there, and no step applies it there (U7; log entry 13). -/
def charmux (r : Roms) (w : PairWord) (k : BitVec 3) : Option Byte :=
  match k.toNat with
  | 1 => some (mapFields r w).c1
  | 2 => some (mapFields r w).c2
  | 3 => some (mapFields r w).c3
  | 4 => some (mapFields r w).c4
  | 5 => some (mapFields r w).c5
  | _ => none

/-- SYLLABLE: the five characters in slot order (R84). -/
def syllable (r : Roms) (w : PairWord) : List Byte :=
  [(mapFields r w).c1, (mapFields r w).c2, (mapFields r w).c3, (mapFields r w).c4, (mapFields r w).c5]

/-- join("-", …) of R9: single hyphens between the items, none before the first or after the last. -/
def joinHyphen : List (List Byte) → List Byte
  | [] => []
  | [s] => s
  | s :: t :: rest => s ++ Config.hyphenCode :: joinHyphen (t :: rest)

/-- The pair words of a byte sequence, left to right: w_k = b[2k] ++ b[2k+1] (R47, R85). A last byte without a partner
belongs to no pair (R51). -/
def pairWords : List Byte → List PairWord
  | b0 :: b1 :: rest => pairWord b0 b1 :: pairWords rest
  | _ => []

/-- The string of a sequence of pair words: its syllables joined by hyphens (R85). -/
def proquint (r : Roms) (ws : List PairWord) : List Byte := joinHyphen (ws.map (syllable r))

/-- ENCODE, the reference function (R85). For an odd number of bytes it is undefined: no value. The bound of 65534 bytes
is one conversion's (R4, R66), not this function's, which R89 applies to longer inputs too (log entry 14). -/
def encodeBytes (r : Roms) (bs : List Byte) : Option (List Byte) :=
  if bs.length % 2 = 0 then some (proquint r (pairWords bs)) else none

/-- The PAIR commands of a byte sequence, in order (R77). -/
def pairCommands : List Byte → List Instr
  | b0 :: b1 :: rest => .pair b0 b1 :: pairCommands rest
  | _ => []

/-- The pseudo-instruction ENCODE: START n and its PAIRs; for odd n START n alone; no expansion from 65536 bytes on
(R77, R78). -/
def expandEncode (bs : List Byte) : Option (List Instr) :=
  if bs.length < 65536 then
    if bs.length % 2 = 0 then some (.start (BitVec.ofNat 16 bs.length) :: pairCommands bs)
    else some [.start (BitVec.ofNat 16 bs.length)]
  else none

/-- The words a host offers for a list of commands, in order. A token row is no command and gives no word. -/
def commandWords (is : List Instr) : List CmdWord := is.filterMap encodeCmd?

/-- The tokens of a string followed by the end marker (R111). -/
def tokensOf (str : List Byte) : List Token := str.map Token.char ++ [Token.fin]

end Sys2Proof.Machine
end

