-- ==== Sys2Proof/Machine/Flags.lean ====
section
/-! DEFINITION. Machine/Flags.lean: the signals that are functions of the state (10_state.md R32) and the STATUS word
(R33). The block has no condition codes (R35). -/

namespace Sys2Proof.Machine

/-- The 2-bit value of STATE (R22). -/
def Mode.code : Mode → BitVec 2
  | .idle => 0
  | .active => 1
  | .error => 2

/-- The 2-bit value of ERR_CODE (R27). -/
def ErrCode.code : ErrCode → BitVec 2
  | .noError => 0
  | .invalidInputLength => 1
  | .protocolError => 2
  | .illegalCommand => 3

/-- The ERR_CODE an error records (R118). -/
def Err.code : Err → ErrCode
  | .invalidInputLength => .invalidInputLength
  | .protocolError => .protocolError
  | .illegalCommand => .illegalCommand

/-- pending = (STATE = ACTIVE) and (SLOT != 6) (R32). -/
def State.pending (s : State) : Bool := s.mode == .active && s.slot != 6

/-- in_ready = not pending (R32). -/
def State.inReady (s : State) : Bool := !s.pending

/-- out_valid = pending (R32). -/
def State.outValid (s : State) : Bool := s.pending

/-- out_token, and none while nothing is pending (R32). -/
def State.outToken (s : State) : Option Token :=
  if s.pending then
    if s.slot = 0 then some (.char Config.hyphenCode)
    else if s.slot = 7 then some .fin
    else (charmux s.roms s.word s.slot).map .char
  else none

/-- One bit, zero-extended to the width of STATUS. -/
def statusBit (b : Bool) : StatusWord := (BitVec.ofBool b).setWidth 32

/-- STATUS = zext(ERR_LEN) << 16 | out_valid << 5 | in_ready << 4 | ERR_CODE << 2 | STATE (R33). -/
def State.status (s : State) : StatusWord :=
  (s.errLen.setWidth 32 <<< 16) ||| (statusBit s.outValid <<< 5) ||| (statusBit s.inReady <<< 4) |||
    (s.errCode.code.setWidth 32 <<< 2) ||| s.mode.code.setWidth 32

end Sys2Proof.Machine
end

