-- ==== Sys2Proof/Machine/Ops.lean ====
section
/-! DEFINITION. Machine/Ops.lean: the operations the meanings share: entering and leaving the error state
(60_exceptions.md R119, R123), RESET (70_reset_and_hazards.md R134), handing out a token, the two handshakes
(10_state.md R32), the STATUS read (41_commands.md R101) and the consumer's reading of a token (30_encoding.md R74). -/

namespace Sys2Proof.Machine

/-- `raise E(info)`: the only error entry (R119). WORD is not written, no token is emitted, nothing is saved. -/
def raise (e : Err) (info : Length) (s : State) : State :=
  { s with mode := .error, errCode := e.code, errLen := info, slot := 6, first := false, remain := 0 }

/-- The return from the error state: what an accepted even START does to the error registers (R98, R123). -/
def clearError (s : State) : State := { s with errCode := .noError, errLen := 0 }

/-- `emit(t)`: append a token to the OUT stream (R11). -/
def emitToken (t : Token) (s : State) : State := { s with out := s.out ++ [t] }

/-- RESET: every register takes its reset value (R37, R134). WORD takes a free value (log entry 2). The ROMs, the tokens
already emitted and the words the host offers stay (R134, R136, R139). -/
def resetBlock (s : State) : State :=
  { s with
    mode := .idle, slot := 6, first := false, remain := 0, errCode := .noError, errLen := 0,
    word := Config.freeWord s.freeIdx, freeIdx := s.freeIdx + 1, wasReset := true }

/-- The IN handshake around a command (R97): with `in_ready = 1` the whole command executes and leaves `after`; with
`in_ready = 0` it is held and no state changes; before the first RESET it has no meaning (R135). -/
def onAccept (s after : State) : Host.Outcome State Fault Refusal :=
  if s.wasReset then
    if s.inReady then .next after else .next s
  else .refused .beforeFirstReset

/-- The OUT handshake around a token (R107): while it is the pending token (`due`), it is handed out and the step leaves
`after`; otherwise that EMIT is not enabled and the block waits unchanged (log entry 8); before the first RESET it has
no meaning (R135). -/
def onEmit (s : State) (due : Bool) (after : State) : Host.Outcome State Fault Refusal :=
  if s.wasReset then
    if s.outValid && due then .next after else .next s
  else .refused .beforeFirstReset

/-- READ_STATUS: the host reads the STATUS port, with no effect on the state (R101). Before the first RESET the read is
refused (R135). -/
def readStatus (s : State) : Host.Outcome StatusWord Fault Refusal :=
  if s.wasReset then .next s.status else .refused .beforeFirstReset

/-- The consumer's reading of a TOK word, `decode_tok` (R74): a reserved control token is a fault at the consumer
(R70, U5). -/
def receiveToken (t : TokWord) : Host.Outcome Token Fault Refusal :=
  if kindBit t = false then .next (.char (codeField t))
  else if codeField t = 0x00#8 then .next .fin
  else .fault (.reservedToken t)

end Sys2Proof.Machine
end

