-- ==== Sys2Proof/Machine/Commands.lean ====
section
/-! DEFINITION. Machine/Commands.lean: the meanings of the host's commands (41_commands.md R98 to R100). Each runs in
one ACCEPT step: its checks, its writes and its error (R97). -/

namespace Sys2Proof.Machine

/-- What an accepted even START writes (R98): a conversion of N/2 pairs, END pending at once if N = 0. WORD is not
written. -/
def beginConversion (n : Length) (s : State) : State :=
  { clearError s with
    mode := .active, first := true, remain := pairCount n, slot := if n = 0 then 7 else 6 }

/-- START(N) as accepted (R98): the state check comes before the parity check (R122). -/
def startEffect (n : Length) (s : State) : State :=
  if s.mode = .active then raise .protocolError 0 s
  else if oddLength n then raise .invalidInputLength n s
  else beginConversion n s

/-- What an accepted PAIR writes in ACTIVE (R99): the first syllable has no hyphen before it. In states no run reaches
with REMAIN = 0 the counter wraps (log entry 11). -/
def loadPair (w : PairWord) (s : State) : State :=
  { s with word := w, slot := if s.first then 1 else 0, first := false, remain := s.remain - 1 }

/-- PAIR(W) as accepted (R99). -/
def pairEffect (w : PairWord) (s : State) : State :=
  if s.mode = .active then loadPair w s else raise .protocolError 0 s

/-- START (R98). -/
def execStart (n : Length) (s : State) : Host.Outcome State Fault Refusal :=
  onAccept s (startEffect n s)

/-- PAIR (R99). -/
def execPair (b0 b1 : Byte) (s : State) : Host.Outcome State Fault Refusal :=
  onAccept s (pairEffect (pairWord b0 b1) s)

/-- ILLEGAL with OP = 0b00: always ILLEGAL_COMMAND, whatever DATA (R100). -/
def execIllegalOp00 (_data : BitVec 16) (s : State) : Host.Outcome State Fault Refusal :=
  onAccept s (raise .illegalCommand 0 s)

/-- ILLEGAL with OP = 0b11: always ILLEGAL_COMMAND, whatever DATA (R100). -/
def execIllegalOp11 (_data : BitVec 16) (s : State) : Host.Outcome State Fault Refusal :=
  onAccept s (raise .illegalCommand 0 s)

end Sys2Proof.Machine
end

