-- ==== Sys2Proof/Machine/Sequencer.lean ====
section
/-! DEFINITION. Machine/Sequencer.lean: the meanings of the tokens: the EMIT step that hands out each of them
(42_output_sequencer.md R107 to R110), chosen by SLOT. -/

namespace Sys2Proof.Machine

/-- EMIT_HYPHEN (R108). -/
def hyphenEffect (s : State) : State :=
  { emitToken (.char Config.hyphenCode) s with slot := 1 }

/-- SLOT after character k = SLOT (R109): the next character, or END after the last syllable, or the next PAIR. -/
def slotAfterChar (s : State) : BitVec 3 :=
  if s.slot < 5 then s.slot + 1 else if s.remain = 0 then 7 else 6

/-- EMIT_CHAR with character `c` (R109). -/
def charEffect (c : Byte) (s : State) : State :=
  { emitToken (.char c) s with slot := slotAfterChar s }

/-- EMIT_END (R110). -/
def endEffect (s : State) : State :=
  { emitToken .fin s with mode := .idle, slot := 6, first := false }

/-- HYPHEN: due in slot 0 (R108). -/
def execHyphen (s : State) : Host.Outcome State Fault Refusal :=
  onEmit s (s.slot == 0) (hyphenEffect s)

/-- CHAR c: due in the slots 1 to 5 where the character multiplexer selects c (R109). -/
def execChar (c : Byte) (s : State) : Host.Outcome State Fault Refusal :=
  onEmit s (charmux s.roms s.word s.slot == some c) (charEffect c s)

/-- END: due in slot 7 (R110). -/
def execEnd (s : State) : Host.Outcome State Fault Refusal :=
  onEmit s (s.slot == 7) (endEffect s)

end Sys2Proof.Machine
end

