-- ==== Sys2Proof/Machine/Dispatch.lean ====
section
/-! DEFINITION. Machine/Dispatch.lean: one arm per row of the opcode map (30_encoding.md R75). -/

namespace Sys2Proof.Machine

def exec (i : Instr) (s : State) : Host.Outcome State Fault Refusal :=
  match i with
  | .start n => Sys2Proof.Machine.execStart n s
  | .pair b0 b1 => Sys2Proof.Machine.execPair b0 b1 s
  | .illegalOp00 data => Sys2Proof.Machine.execIllegalOp00 data s
  | .illegalOp11 data => Sys2Proof.Machine.execIllegalOp11 data s
  | .hyphen => Sys2Proof.Machine.execHyphen s
  | .char c => Sys2Proof.Machine.execChar c s
  | .endTok => Sys2Proof.Machine.execEnd s

end Sys2Proof.Machine
end

