-- ==== Sys2Proof/Machine/Ports.lean ====
section
/-! DEFINITION. Machine/Ports.lean: what each move of the outside world makes the block do (00_scope.md R12, R13), and
the placing of one transfer so that it is the next one. -/

namespace Sys2Proof.Machine

/-- The instruction of the pending token, chosen by SLOT as R107 says (log entry 12). -/
def pendingInstr (s : State) : Option Instr :=
  if s.pending then
    if s.slot = 0 then some .hyphen
    else if s.slot = 7 then some .endTok
    else (charmux s.roms s.word s.slot).map .char
  else none

/-- The host's move. ACCEPT is enabled while the host offers a word and `in_ready = 1`: the word leaves the port and its
command executes. While `in_ready = 0` the word is held on the port (41_commands.md R97, 70_reset_and_hazards.md R140).
With no word offered nothing happens. -/
def acceptTurn (s : State) : Host.Outcome State Fault Refusal :=
  match s.inQ with
  | [] => .next s
  | x :: rest =>
    if s.wasReset then
      if s.inReady then exec (decodeCmd x) { s with inQ := rest } else .next s
    else .refused .beforeFirstReset

/-- The consumer's move. EMIT is enabled while `out_valid = 1`: the pending token is handed out (R107). With nothing
pending the consumer waits. -/
def emitTurn (s : State) : Host.Outcome State Fault Refusal :=
  if s.wasReset then
    match pendingInstr s with
    | some i => exec i s
    | none => .next s
  else .refused .beforeFirstReset

/-- RST asserted: enabled in every state, before the first RESET too (R134, R135). -/
def resetTurn (s : State) : Host.Outcome State Fault Refusal := .next (resetBlock s)

/-- The host takes back the word on the port; the block does nothing (R134). -/
def withdrawTurn (s : State) : Host.Outcome State Fault Refusal := .next { s with inQ := s.inQ.tail }

/-- The move of one turn. -/
def playTurn (t : Turn) (s : State) : Host.Outcome State Fault Refusal :=
  match t with
  | .accept => acceptTurn s
  | .emit => emitTurn s
  | .reset => resetTurn s
  | .withdraw => withdrawTurn s

/-- One step: the next turn is taken and its move made. With no turn to take the block waits (60_exceptions.md R127). -/
def takeTurn (s : State) : Host.Outcome State Fault Refusal :=
  match s.turns with
  | [] => .next s
  | t :: ts => playTurn t { s with turns := ts }

/-- `s` after a first RESET if it never had one: the block runs nothing before it (R135, R137). -/
def ensureReset (s : State) : State := if s.wasReset then s else resetBlock s

/-- Offer `x` on IN as the next transfer: on the port, with the host's move next and nothing pending (a conversion whose
token is pending is taken as ended, R97). -/
def placeCommand (x : CmdWord) (s : State) : State :=
  if (ensureReset s).pending then
    { ensureReset s with
      mode := .idle, slot := 6, first := false, remain := 0, inQ := x :: s.inQ, turns := .accept :: s.turns }
  else { ensureReset s with inQ := x :: s.inQ, turns := .accept :: s.turns }

/-- A conversion in ACTIVE with slot `k` pending and the consumer's move next. -/
def placeSlot (k : BitVec 3) (s : State) : State :=
  { ensureReset s with
    mode := .active, slot := k, first := false, remain := 0, errCode := .noError, errLen := 0,
    turns := .emit :: s.turns }

/-- A block whose pending token is CHAR c: in slot 1 if ROM_C holds c, in slot 2 if ROM_V does. Otherwise the
configuration with ROM_C9 = c, a value R7 allows for every c that is neither in the tables nor the hyphen, in slot 1
with index 9 (log entry 9). -/
def placeChar (c : Byte) (s : State) : State :=
  match s.roms.romC.toList.findIdx? (· == c) with
  | some i => { placeSlot 1 s with word := BitVec.ofNat 4 i ++ 0#12 }
  | none =>
    match s.roms.romV.toList.findIdx? (· == c) with
    | some j => { placeSlot 2 s with word := 0#4 ++ BitVec.ofNat 2 j ++ 0#10 }
    | none => { placeSlot 1 s with word := 9#4 ++ 0#12, roms := { s.roms with romC := s.roms.romC.set 9 c } }

/-- `s` with the instruction `i` as the very next transfer (log entry 6). -/
def placeInstr (i : Instr) (s : State) : State :=
  match i with
  | .start n => placeCommand (cmdWord 0b01#2 n) s
  | .pair b0 b1 => placeCommand (cmdWord 0b10#2 (b0 ++ b1)) s
  | .illegalOp00 d => placeCommand (cmdWord 0b00#2 d) s
  | .illegalOp11 d => placeCommand (cmdWord 0b11#2 d) s
  | .hyphen => placeSlot 0 s
  | .char c => placeChar c s
  | .endTok => placeSlot 7 s

/-- `s` with a table word as the very next transfer; a word the decoder refuses is no transfer and places nothing. -/
def placeTableWord (nbits w : Nat) (s : State) : State :=
  match decodeTableWord nbits w with
  | some i => placeInstr i s
  | none => s

end Sys2Proof.Machine
end

