-- ==== Sys2Proof/Machine/Step.lean ====
section
/-! DEFINITION. Machine/Step.lean: one step of the block and its surroundings (00_scope.md R12), and the placing of a
table word as the next transfer. -/

namespace Sys2Proof.Machine

/-- One step (R12): the party that `turns` names moves. -/
def step (s : State) : Host.Outcome State Fault Refusal := takeTurn s

/-- `s` with the table word `w` of `nbits` bits as the very next transfer on its port (log entry 6). -/
def State.withFetchWord (s : State) (nbits w : Nat) : State := placeTableWord nbits w s

end Sys2Proof.Machine
end

