-- ==== Sys2Proof/Safety.lean ====
section
/-! DEFINITION. Safety.lean: the invariants of 10_state.md R36, what a run is, and the terms the statements use. -/

namespace Sys2Proof.Machine

/-- R36 (1): outside a conversion nothing is pending or expected. -/
abbrev State.QuietOutsideActive (s : State) : Prop :=
  s.mode ≠ .active → s.slot = 6 ∧ s.first = false ∧ s.remain = 0

/-- R36 (2): ERR_CODE is 0 exactly when STATE is not ERROR. -/
abbrev State.ErrorIffCoded (s : State) : Prop := s.errCode = .noError ↔ s.mode ≠ .error

/-- R36 (3) and R28: ERR_LEN holds the offending odd length under code 1 and is 0 otherwise. -/
abbrev State.ErrLenOk (s : State) : Prop :=
  (s.errLen ≠ 0 → s.errCode = .invalidInputLength) ∧ (s.errCode = .invalidInputLength → s.errLen.toNat % 2 = 1)

/-- R36 (4): waiting for a PAIR means that one is expected. -/
abbrev State.WaitingExpects (s : State) : Prop := s.mode = .active → s.slot = 6 → s.remain ≠ 0

/-- R36 (5): END is pending only in ACTIVE with no pair left. -/
abbrev State.EndIsLast (s : State) : Prop := s.slot = 7 → s.remain = 0 ∧ s.mode = .active

/-- R36 (6), its part on FIRST: in the slots 0 to 5 the first PAIR has been accepted. -/
abbrev State.LoadedInSyllable (s : State) : Prop := s.slot ≤ 5 → s.first = false

/-- The register invariants of R36: (1) to (5), the FIRST part of (6), and (8), of which the type of STATE and (1) leave
nothing more to say. -/
abbrev State.Inv (s : State) : Prop :=
  s.QuietOutsideActive ∧ s.ErrorIffCoded ∧ s.ErrLenOk ∧ s.WaitingExpects ∧ s.EndIsLast ∧ s.LoadedInSyllable

/-- The instruction that the next step executes: the offered command if ACCEPT is enabled and the host moves (R97), the
pending token if the consumer moves (R107); none where the step is a RESET, a withdrawal or a wait. -/
def State.executes (s : State) : Option Instr :=
  match s.turns with
  | .accept :: _ => if s.wasReset && s.inReady then s.inQ.head?.map decodeCmd else none
  | .emit :: _ => if s.wasReset then pendingInstr s else none
  | _ => none

/-- The tokens of a pair word's syllable (R84). -/
def syllableTokens (r : Roms) (w : PairWord) : List Token := (syllable r w).map Token.char

/-- R36 (7) and the like for the other slots, on the OUT stream: in slot k the first k-1 characters of the current
syllable have just left; a hyphen is pending only right after a whole syllable; between two syllables and before END a
whole syllable has just left. -/
def State.StreamInv (s : State) : Prop :=
  s.mode = .active →
    (s.slot = 0 → ∃ w, syllableTokens s.roms w <:+ s.out) ∧
    (1 ≤ s.slot → s.slot ≤ 5 → (syllableTokens s.roms s.word).take (s.slot.toNat - 1) <:+ s.out) ∧
    (6 ≤ s.slot → s.first = false → syllableTokens s.roms s.word <:+ s.out)

/-- `k` steps lead from `s` to `t`, none of them stopping. (The host's run of the core says the same: Laws/Step.lean.) -/
def runsTo : Nat → State → State → Prop
  | 0, s, t => t = s
  | k + 1, s, t => ∃ u, step s = .next u ∧ runsTo k u t

/-- Every turn to come is the host's offer or the consumer's taking: no RESET occurs and no word is withdrawn. -/
abbrev State.OnlyTransfers (s : State) : Prop := ∀ t ∈ s.turns, t = .accept ∨ t = .emit

/-- Two states that differ at most in WORD and in how many free values were drawn, and in WORD only while no character
is made from it. -/
def State.AgreeButIdleWord (s t : State) : Prop :=
  t = { s with word := t.word, freeIdx := t.freeIdx } ∧ (s.mode = .active → s.slot ≤ 5 → t.word = s.word)

end Sys2Proof.Machine
end

