-- ==== Sys2Proof/Certificates/Slice0/Obligations.lean ====
section
/-! DEFINITION. Certificates/Slice0/Obligations.lean: the statements, one definition each. A statement that gives a next
state as `{ s with … }` says the frame too: every field it does not name keeps its value, the ROMs, the OUT stream and
the words on IN among them. -/

open Sys2Proof Sys2Proof.Machine

/-! ## Encoding (30_encoding.md) -/

/-- The words of 95_test_vectors.md 2.2, written out field by field: OP ++ DATA on IN, K ++ C on OUT. -/
def Obligations.WrittenOutWordsDecode : Prop :=
  decode (.cmd (0b01#2 ++ 0x0004#16)) = .ok (.start 4) ∧
  decode (.cmd (0b01#2 ++ 0xFFFF#16)) = .ok (.start 65535) ∧
  decode (.cmd (0b10#2 ++ 0x7F00#16)) = .ok (.pair 127 0) ∧
  decode (.cmd (0b00#2 ++ 0xFFFF#16)) = .ok (.illegalOp00 0xFFFF) ∧
  decode (.cmd (0b11#2 ++ 0xABCD#16)) = .ok (.illegalOp11 0xABCD) ∧
  decode (.tok (0#1 ++ 0x2D#8)) = .ok .hyphen ∧
  decode (.tok (0#1 ++ 0x62#8)) = .ok (.char 0x62) ∧
  decode (.tok (1#1 ++ 0x00#8)) = .ok .endTok ∧
  decode (.tok (1#1 ++ 0x01#8)) = .error (.reservedToken 0x101)

/-- Decoding an encoded well-formed instruction gives it back, with every operand at every value. -/
def Obligations.DecodeOfEncodeGivesTheInstruction : Prop :=
  ∀ i : Instr, i.wf = true → decode (encode i) = .ok i

/-- Every word that decodes has one meaning: the instruction read is well-formed and encodes to that word, no bit
dropped. -/
def Obligations.EncodeOfDecodeGivesTheWord : Prop :=
  ∀ (x : Transfer) (i : Instr), decode x = .ok i → i.wf = true ∧ encode i = x

/-- R73: the IN decoder, by the value of OP. -/
def Obligations.CommandWordsDecodeByOp : Prop :=
  ∀ x : CmdWord,
    (x.extractLsb' 16 2 = 0b01#2 → decodeCmd x = .start (x.extractLsb' 0 16)) ∧
    (x.extractLsb' 16 2 = 0b10#2 → decodeCmd x = .pair (x.extractLsb' 8 8) (x.extractLsb' 0 8)) ∧
    (x.extractLsb' 16 2 = 0b00#2 → decodeCmd x = .illegalOp00 (x.extractLsb' 0 16)) ∧
    (x.extractLsb' 16 2 = 0b11#2 → decodeCmd x = .illegalOp11 (x.extractLsb' 0 16))

/-- R74, as the consumer reads a TOK word; the OUT decoder of instructions reads the same, with CHAR(0x2D) the HYPHEN
row. The fault on a reserved word is the model's reading of R70 and U5 (log entry 18). -/
def Obligations.TokenWordsDecodeByKind : Prop :=
  ∀ t : TokWord,
    (t.getLsbD 8 = false → receiveToken t = .next (.char (t.extractLsb' 0 8)) ∧
      decodeTok t = .ok (if t.extractLsb' 0 8 = 0x2D#8 then .hyphen else .char (t.extractLsb' 0 8))) ∧
    (t = 0x100#9 → receiveToken t = .next .fin ∧ decodeTok t = .ok .endTok) ∧
    (0x101 ≤ t.toNat → receiveToken t = .fault (.reservedToken t) ∧ decodeTok t = .error (.reservedToken t))

/-- R77, R78: the expansion of ENCODE, as words on IN. -/
def Obligations.EncodePseudoInstructionExpands : Prop :=
  (∀ bs : List Byte, bs.length < 65536 → bs.length % 2 = 0 →
    ∃ cmds, expandEncode bs = some cmds ∧
      commandWords cmds = (0b01#2 ++ BitVec.ofNat 16 bs.length) :: (pairWords bs).map (fun w => 0b10#2 ++ w)) ∧
  (∀ bs : List Byte, bs.length < 65536 → bs.length % 2 = 1 →
    expandEncode bs = some [.start (BitVec.ofNat 16 bs.length)]) ∧
  (∀ bs : List Byte, 65536 ≤ bs.length → expandEncode bs = none)

/-! ## State and STATUS (10_state.md) -/

/-- R33: every field of STATUS at its bits, the reserved bits 0, and the word after reset. -/
def Obligations.StatusLayout : Prop :=
  (∀ s : State,
    s.status.extractLsb' 0 2 = s.mode.code ∧ s.status.extractLsb' 2 2 = s.errCode.code ∧
    s.status.getLsbD 4 = s.inReady ∧ s.status.getLsbD 5 = s.outValid ∧
    s.status.extractLsb' 6 10 = 0 ∧ s.status.extractLsb' 16 16 = s.errLen) ∧
  (Mode.code .idle = 0 ∧ Mode.code .active = 1 ∧ Mode.code .error = 2) ∧
  (ErrCode.code .noError = 0 ∧ ErrCode.code .invalidInputLength = 1 ∧ ErrCode.code .protocolError = 2 ∧
    ErrCode.code .illegalCommand = 3) ∧
  State.reset.status = 0x00000010#32

/-- R32: pending, in_ready, out_valid and out_token. The character of slot k is the k-th of the syllable. -/
def Obligations.HandshakeSignals : Prop :=
  ∀ s : State,
    (s.pending = true ↔ s.mode = .active ∧ s.slot ≠ 6) ∧ s.inReady = !s.pending ∧ s.outValid = s.pending ∧
    (s.pending = false → s.outToken = none) ∧
    (s.pending = true → s.slot = 0 → s.outToken = some (.char 0x2D)) ∧
    (s.pending = true → s.slot = 7 → s.outToken = some .fin) ∧
    (s.pending = true → 1 ≤ s.slot → s.slot ≤ 5 →
      s.outToken = (syllable s.roms s.word)[s.slot.toNat - 1]?.map Token.char)

/-- The register invariants of R36 hold at reset, and the ROMs there are ones the spec allows (R7, R29, R30); the
defaults of the three configuration fields are the spec's general knowledge (log entry 3). -/
def Obligations.ResetStateMeetsTheInvariants : Prop :=
  State.reset.Inv ∧ State.reset.StreamInv ∧ State.reset.roms.legal ∧ State.reset.wasReset = true

/-- R36: every step keeps the register invariants, from every state that meets them. -/
def Obligations.StepKeepsTheRegisterInvariants : Prop :=
  ∀ s t : State, s.Inv → step s = .next t → t.Inv

/-- R36 (7): a hyphen becomes pending only after a whole syllable has left, and the tokens of a syllable leave in order,
as an invariant of the OUT stream that every step keeps. -/
def Obligations.StepKeepsTheStreamInvariant : Prop :=
  ∀ s t : State, s.Inv → s.StreamInv → step s = .next t → t.StreamInv

/-- R36 (6): in the slots 0 to 5, WORD is the pair word of the last command accepted, a PAIR, however the run got there
from outside a conversion. The run may hold resets; no word is withdrawn in it. -/
def Obligations.WordIsTheLastAcceptedPair : Prop :=
  ∀ (k : Nat) (s t : State), s.mode ≠ .active → Turn.withdraw ∉ s.turns → runsTo k s t →
    t.mode = .active → t.slot ≤ 5 →
    ∃ (before : List CmdWord) (x : CmdWord) (b0 b1 : Byte),
      s.inQ = before ++ x :: t.inQ ∧ decodeCmd x = .pair b0 b1 ∧ t.word = b0 ++ b1 ∧ t.first = false

/-- R35: what a step changes, and by which rule. `raised` is the error entry of R119. -/
def Obligations.OnlyTheListedRulesWriteARegister : Prop :=
  ∀ s t : State, step s = .next t → (∀ ts, s.turns ≠ .reset :: ts) →
    let start := ∃ n, s.executes = some (.start n)
    let pair := ∃ b0 b1, s.executes = some (.pair b0 b1)
    let illegal := ∃ d, s.executes = some (.illegalOp00 d) ∨ s.executes = some (.illegalOp11 d)
    let char := ∃ c, s.executes = some (.char c)
    let fin := s.executes = some .endTok
    let raised := (start ∨ pair ∨ illegal) ∧ t.mode = .error
    (t.mode ≠ s.mode → start ∨ fin ∨ raised) ∧
    (t.slot ≠ s.slot → start ∨ pair ∨ s.executes = some .hyphen ∨ char ∨ fin ∨ raised) ∧
    (t.first ≠ s.first → start ∨ pair ∨ fin ∨ raised) ∧
    (t.remain ≠ s.remain → start ∨ pair ∨ raised) ∧
    (t.word ≠ s.word → pair) ∧
    (t.errCode ≠ s.errCode → start ∨ raised) ∧
    (t.errLen ≠ s.errLen → start ∨ raised) ∧
    t.roms = s.roms

/-- R31, R136: no step writes the ROMs, a RESET among them, and no instruction does; they stand from power-on. -/
def Obligations.RomsAreNeverWritten : Prop :=
  (∀ s t : State, step s = .next t → t.roms = s.roms) ∧
  (∀ (i : Instr) (s t : State), exec i s = .next t → t.roms = s.roms) ∧
  State.powerOn.roms = State.reset.roms

/-- R29, R30: the 13 forced consonants and the four vowels, in every ROM the spec allows; the defaults of R7 in the
reset state (the spec's general knowledge, log entry 3). -/
def Obligations.TablesHoldTheAlphabet : Prop :=
  (∀ r : Roms, r.legal →
    ([0, 1, 2, 3, 4, 5, 6, 7, 8, 10, 12, 13, 15].map (cons r) =
      [0x62, 0x64, 0x66, 0x67, 0x68, 0x6A, 0x6B, 0x6C, 0x6D, 0x70, 0x73, 0x74, 0x7A]) ∧
    ([0, 1, 2, 3].map (vow r) = [0x61, 0x69, 0x6F, 0x75])) ∧
  ([9, 11, 14].map (cons State.reset.roms) = [0x6E, 0x72, 0x76])

/-! ## Commands (41_commands.md) -/

/-- R98: START as accepted, its three outcomes, each the whole next state; and its encoding. -/
def Obligations.StartFollowsItsRule : Prop :=
  ∀ (n : Length) (s : State), s.wasReset = true → s.inReady = true →
    encode (.start n) = .cmd (0b01#2 ++ n) ∧
    (s.mode = .active →
      exec (.start n) s = .next { s with
        mode := .error, errCode := .protocolError, errLen := 0, slot := 6, first := false, remain := 0 }) ∧
    (s.mode ≠ .active → n.toNat % 2 = 1 →
      exec (.start n) s = .next { s with
        mode := .error, errCode := .invalidInputLength, errLen := n, slot := 6, first := false, remain := 0 }) ∧
    (s.mode ≠ .active → n.toNat % 2 = 0 →
      exec (.start n) s = .next { s with
        mode := .active, first := true, remain := BitVec.ofNat 15 (n.toNat / 2), errCode := .noError, errLen := 0,
        slot := if n.toNat = 0 then 7 else 6 })

/-- R99: PAIR as accepted, in ACTIVE with a pair expected (R36 (4) rules the other case out) and outside ACTIVE. -/
def Obligations.PairFollowsItsRule : Prop :=
  ∀ (b0 b1 : Byte) (s : State), s.wasReset = true → s.inReady = true →
    encode (.pair b0 b1) = .cmd (0b10#2 ++ (b0 ++ b1)) ∧
    (s.mode = .active → 1 ≤ s.remain.toNat →
      exec (.pair b0 b1) s = .next { s with
        word := b0 ++ b1, slot := if s.first = true then 1 else 0, first := false,
        remain := BitVec.ofNat 15 (s.remain.toNat - 1) }) ∧
    (s.mode ≠ .active →
      exec (.pair b0 b1) s = .next { s with
        mode := .error, errCode := .protocolError, errLen := 0, slot := 6, first := false, remain := 0 })

/-- R100: both illegal rows raise ILLEGAL_COMMAND in every STATE, whatever DATA. -/
def Obligations.IllegalWordsAlwaysRaise : Prop :=
  ∀ (d : BitVec 16) (s : State), s.wasReset = true → s.inReady = true →
    encode (.illegalOp00 d) = .cmd (0b00#2 ++ d) ∧ encode (.illegalOp11 d) = .cmd (0b11#2 ++ d) ∧
    exec (.illegalOp00 d) s = .next { s with
      mode := .error, errCode := .illegalCommand, errLen := 0, slot := 6, first := false, remain := 0 } ∧
    exec (.illegalOp11 d) s = .next { s with
      mode := .error, errCode := .illegalCommand, errLen := 0, slot := 6, first := false, remain := 0 }

/-- R97, R140: while `in_ready = 0` a command changes nothing, and the offered word stays on the port. -/
def Obligations.CommandsAreHeldWhileATokenIsPending : Prop :=
  ∀ s : State, s.wasReset = true → s.inReady = false →
    (∀ n, exec (.start n) s = .next s) ∧ (∀ b0 b1, exec (.pair b0 b1) s = .next s) ∧
    (∀ d, exec (.illegalOp00 d) s = .next s ∧ exec (.illegalOp11 d) s = .next s) ∧
    (∀ ts, s.turns = .accept :: ts → step s = .next { s with turns := ts })

/-- R101: after the first RESET a STATUS read gives the word of R33 for the state between two steps, whatever is pending
or held; before it the read is refused (R135). -/
def Obligations.StatusReadGivesTheStatusWord : Prop :=
  ∀ s : State,
    (s.wasReset = true →
      readStatus s = .next ((s.errLen.setWidth 32 <<< 16) ||| ((if s.outValid then 1#32 else 0#32) <<< 5) |||
        ((if s.inReady then 1#32 else 0#32) <<< 4) ||| (s.errCode.code.setWidth 32 <<< 2) ||| s.mode.code.setWidth 32)) ∧
    (s.wasReset = false → readStatus s = .refused .beforeFirstReset)

/-! ## Output sequencer (42_output_sequencer.md) -/

/-- R108: EMIT_HYPHEN. -/
def Obligations.HyphenFollowsItsRule : Prop :=
  ∀ s : State, s.wasReset = true → s.mode = .active → s.slot = 0 →
    encode .hyphen = .tok 0x02D#9 ∧
    exec .hyphen s = .next { s with out := s.out ++ [.char 0x2D], slot := 1 }

/-- R109, with the fields of R79 and the tables of R80 and R81 written out: EMIT_CHAR in slot k emits the k-th of the
five characters. -/
def Obligations.CharFollowsItsRule : Prop :=
  ∀ (s : State) (c : Byte), s.wasReset = true → s.mode = .active → 1 ≤ s.slot → s.slot ≤ 5 →
    [cons s.roms (s.word.extractLsb' 12 4), vow s.roms (s.word.extractLsb' 10 2), cons s.roms (s.word.extractLsb' 6 4),
      vow s.roms (s.word.extractLsb' 4 2), cons s.roms (s.word.extractLsb' 0 4)][s.slot.toNat - 1]? = some c →
    encode (.char c) = .tok (0#1 ++ c) ∧
    exec (.char c) s = .next { s with
      out := s.out ++ [.char c],
      slot := if s.slot.toNat < 5 then s.slot + 1 else if s.remain = 0 then 7 else 6 }

/-- R110: EMIT_END. -/
def Obligations.EndFollowsItsRule : Prop :=
  ∀ s : State, s.wasReset = true → s.mode = .active → s.slot = 7 →
    encode .endTok = .tok 0x100#9 ∧
    exec .endTok s = .next { s with out := s.out ++ [.fin], mode := .idle, slot := 6, first := false }

/-- A token that is not the pending one is not handed out: the block waits (the model's choice, log entry 8). -/
def Obligations.TokensNotPendingAreNotHandedOut : Prop :=
  ∀ s : State, s.wasReset = true →
    (s.outValid = false ∨ s.slot ≠ 0 → exec .hyphen s = .next s) ∧
    (s.outValid = false ∨ s.slot ≠ 7 → exec .endTok s = .next s) ∧
    (∀ c, s.outValid = false ∨ charmux s.roms s.word s.slot ≠ some c → exec (.char c) s = .next s)

/-- R114: a token leaves only in ACTIVE, and it is the pending one. -/
def Obligations.TokensLeaveOnlyInActive : Prop :=
  ∀ s t : State, step s = .next t → t.out ≠ s.out →
    s.mode = .active ∧ ∃ ts tok, s.turns = .emit :: ts ∧ s.outToken = some tok ∧ t.out = s.out ++ [tok]

/-- R70: the only tokens are the entries of the two tables, the hyphen and END; no reserved control token ever leaves. -/
def Obligations.OnlyAlphabetHyphenAndEndAreEmitted : Prop :=
  ∀ s t : State, step s = .next t →
    t.out = s.out ∨
      ∃ tok, t.out = s.out ++ [tok] ∧ tok.word.toNat ≤ 0x100 ∧
        (tok = .fin ∨ tok = .char 0x2D ∨ (∃ i, tok = .char (cons s.roms i)) ∨ ∃ j, tok = .char (vow s.roms j))

/-- R113: the tokens each command causes. A START of no bytes: END; any other even START: none. A PAIR: its hyphen if it
is not the first, its five characters, and END after the last. Seven takings by the consumer are enough. -/
def Obligations.TokensOfOneCommand : Prop :=
  (∀ (s : State) (n : Length) (rest : List CmdWord) (ts : List Turn),
    s.wasReset = true → s.mode ≠ .active → n.toNat % 2 = 0 →
    s.inQ = (0b01#2 ++ n) :: rest → s.turns = .accept :: .emit :: ts →
    ∃ t, runsTo 2 s t ∧ t.pending = false ∧ t.inQ = rest ∧ t.turns = ts ∧
      t.out = s.out ++ (if n.toNat = 0 then [.fin] else [])) ∧
  ∀ (s : State) (b0 b1 : Byte) (rest : List CmdWord) (ts : List Turn),
    s.wasReset = true → s.mode = .active → s.slot = 6 → s.remain ≠ 0 →
    s.inQ = (0b10#2 ++ (b0 ++ b1)) :: rest → s.turns = .accept :: (List.replicate 7 .emit ++ ts) →
    ∃ t, runsTo 8 s t ∧ t.pending = false ∧ t.inQ = rest ∧ t.turns = ts ∧
      t.out = s.out ++ (if s.first = true then [] else [.char 0x2D]) ++ syllableTokens s.roms (b0 ++ b1) ++
        (if s.remain = 1 then [.fin] else [])

/-- R111, the stream theorem, its safety half. The host offers the words of one conversion, then any others. Whatever
the interleaving of offers and takings, until a later word is accepted: what has left is a prefix of the proquint and
END; from START on there is no error; and once every word of the conversion is accepted and nothing is pending, all of
it has left and the block is idle again. -/
def Obligations.ConversionEmitsTheProquint : Prop :=
  ∀ (k : Nat) (s t : State) (bs str : List Byte) (cmds : List Instr) (rest : List CmdWord),
    s.wasReset = true → s.mode ≠ .active → bs.length ≤ 65534 →
    encodeBytes s.roms bs = some str → expandEncode bs = some cmds →
    s.inQ = commandWords cmds ++ rest → s.OnlyTransfers → runsTo k s t → rest <:+ t.inQ →
    ∃ sent, sent <+: tokensOf str ∧ t.out = s.out ++ sent ∧
      (t.inQ ≠ s.inQ → t.mode ≠ .error ∧ t.errCode = .noError) ∧
      (t.inQ = rest → t.pending = false →
        sent = tokensOf str ∧ t.mode = .idle ∧ t.status = 0x00000010#32)

/-- R111, the stream theorem, its progress half: where host and consumer move in turn, the whole conversion completes,
within one round per word and token. -/
def Obligations.ConversionCompletes : Prop :=
  ∀ (s : State) (bs str : List Byte) (cmds : List Instr) (ts : List Turn) (rounds : Nat),
    s.wasReset = true → s.mode ≠ .active → bs.length ≤ 65534 →
    encodeBytes s.roms bs = some str → expandEncode bs = some cmds → s.inQ = commandWords cmds →
    rounds = cmds.length + (tokensOf str).length →
    s.turns = (List.replicate rounds [Turn.accept, Turn.emit]).flatten ++ ts →
    ∃ t, runsTo (2 * rounds) s t ∧ t.out = s.out ++ tokensOf str ∧ t.mode = .idle ∧ t.inQ = [] ∧ t.turns = ts ∧
      t.status = 0x00000010#32

/-- R112: how many tokens a conversion of N bytes emits, and how many of them are hyphens, in every ROM the spec
allows. -/
def Obligations.ConversionTokenCounts : Prop :=
  ∀ (r : Roms) (bs str : List Byte), r.legal → encodeBytes r bs = some str →
    (tokensOf str).count .fin = 1 ∧
    (bs = [] → tokensOf str = [.fin]) ∧
    (bs ≠ [] → (tokensOf str).length = 3 * bs.length - 1 + 1 ∧
      (tokensOf str).count (.char 0x2D) = bs.length / 2 - 1)

/-- R115: the token stream is fixed by the words the host offers. Two runs from one state that differ only in the
interleaving of offers and takings emit streams of which one continues the other. -/
def Obligations.OneStreamPerCommandSequence : Prop :=
  ∀ (s t u : State) (ts us : List Turn) (j k : Nat),
    ({ s with turns := ts }).OnlyTransfers → ({ s with turns := us }).OnlyTransfers →
    runsTo j { s with turns := ts } t → runsTo k { s with turns := us } u →
    t.out <+: u.out ∨ u.out <+: t.out

/-! ## Datapath (40_datapath.md) -/

/-- R88, its equations: the five fields give back both bytes. -/
def Obligations.FieldsReassembleTheWord : Prop :=
  ∀ w : PairWord,
    w.extractLsb' 8 8 = ((slice w).f1.setWidth 8 <<< 4) ||| ((slice w).f2.setWidth 8 <<< 2) |||
      ((slice w).f3.setWidth 8 >>> 2) ∧
    w.extractLsb' 0 8 = (((slice w).f3.setWidth 8 &&& 0b0011#8) <<< 6) ||| ((slice w).f4.setWidth 8 <<< 4) |||
      (slice w).f5.setWidth 8

/-- R88: the syllable of a word determines the word, in every ROM the spec allows. -/
def Obligations.SyllablesAreInjective : Prop :=
  ∀ (r : Roms) (v w : PairWord), r.legal → syllable r v = syllable r w → v = w

/-- R88, the round-trip property with the decoder out of scope: a string determines its byte sequence. -/
def Obligations.EncodingIsInjective : Prop :=
  ∀ (r : Roms) (as bs str : List Byte), r.legal → encodeBytes r as = some str → encodeBytes r bs = some str → as = bs

/-- R86: the length of an encoding is 0 or 3n - 1. That an odd length has no value and every even length has one, with no
bound at 65534 bytes, is the model's reading of R85 and R90 (DEDUCED, log entry 14). -/
def Obligations.LengthLaw : Prop :=
  ∀ (r : Roms) (bs : List Byte),
    (bs.length % 2 = 1 → encodeBytes r bs = none) ∧
    (bs.length % 2 = 0 → ∃ str, encodeBytes r bs = some str ∧
      (bs.length = 0 → str.length = 0) ∧
      (0 < bs.length → str.length = bs.length / 2 * 6 - 1 ∧ str.length = 3 * bs.length - 1))

/-- R87: where each character of the string comes from. -/
def Obligations.PositionLaw : Prop :=
  ∀ (r : Roms) (bs str : List Byte) (p : Nat), encodeBytes r bs = some str → p < str.length →
    (p % 6 < 5 → ∃ b0 b1, bs[2 * (p / 6)]? = some b0 ∧ bs[2 * (p / 6) + 1]? = some b1 ∧
      str[p]? = (syllable r (b0 ++ b1))[p % 6]?) ∧
    (p % 6 = 5 → str[p]? = some 0x2D)

/-- R92: consonant, vowel, consonant, vowel, consonant, hyphen. -/
def Obligations.SyllablePattern : Prop :=
  ∀ (r : Roms) (bs str : List Byte) (p : Nat), encodeBytes r bs = some str → p < str.length →
    (p % 6 = 0 ∨ p % 6 = 2 ∨ p % 6 = 4 → ∃ i, str[p]? = some (cons r i)) ∧
    (p % 6 = 1 ∨ p % 6 = 3 → ∃ j, str[p]? = some (vow r j)) ∧
    (p % 6 = 5 → str[p]? = some 0x2D)

/-- R89: the splice law. -/
def Obligations.SpliceLaw : Prop :=
  ∀ (r : Roms) (as cs sa sc : List Byte), as ≠ [] → cs ≠ [] →
    encodeBytes r as = some sa → encodeBytes r cs = some sc →
    encodeBytes r (as ++ cs) = some (sa ++ 0x2D :: sc)

/-- R91: no table entry is the hyphen, so a hyphen token is a separator, pending in slot 0 only. -/
def Obligations.HyphenIsNoTableEntry : Prop :=
  (∀ r : Roms, r.legal → (∀ i, cons r i ≠ 0x2D) ∧ ∀ j, vow r j ≠ 0x2D) ∧
  (∀ s : State, s.roms.legal → s.outToken = some (.char 0x2D) → s.slot = 0)

/-- The four known vectors of the source (95_test_vectors.md 1.1), in every ROM the spec allows. -/
def Obligations.KnownVectorsEncode : Prop :=
  ∀ r : Roms, r.legal →
    encodeBytes r [127, 0, 0, 1] = some [0x6C, 0x75, 0x73, 0x61, 0x62, 0x2D, 0x62, 0x61, 0x62, 0x61, 0x64] ∧
    encodeBytes r [63, 84, 220, 193] = some [0x67, 0x75, 0x74, 0x69, 0x68, 0x2D, 0x74, 0x75, 0x67, 0x61, 0x64] ∧
    encodeBytes r [140, 98, 193, 141] = some [0x6D, 0x75, 0x64, 0x6F, 0x66, 0x2D, 0x73, 0x61, 0x6B, 0x61, 0x74] ∧
    encodeBytes r [212, 58, 253, 68] = some [0x74, 0x69, 0x62, 0x75, 0x70, 0x2D, 0x7A, 0x75, 0x6A, 0x61, 0x68]

/-! ## Errors (60_exceptions.md) -/

/-- R117, R118, R119, R122: a step that enters the error state, or changes an error, is the ACCEPT of a command with a
cause of R118, and it is exactly the error entry of R119. -/
def Obligations.ErrorsComeOnlyFromAcceptedCommands : Prop :=
  ∀ s t : State, step s = .next t → t.mode = .error →
    (s.mode ≠ .error ∨ t.errCode ≠ s.errCode ∨ t.errLen ≠ s.errLen) →
    ∃ (x : CmdWord) (rest : List CmdWord) (ts : List Turn) (code : ErrCode) (info : Length),
      s.turns = .accept :: ts ∧ s.inQ = x :: rest ∧ s.inReady = true ∧
      t = { s with
        turns := ts, inQ := rest, mode := .error, errCode := code, errLen := info, slot := 6, first := false,
        remain := 0 } ∧
      (((∃ d, decodeCmd x = .illegalOp00 d ∨ decodeCmd x = .illegalOp11 d) ∧ code = .illegalCommand ∧ info = 0) ∨
       ((∃ n, decodeCmd x = .start n) ∧ s.mode = .active ∧ code = .protocolError ∧ info = 0) ∨
       ((∃ b0 b1, decodeCmd x = .pair b0 b1) ∧ s.mode ≠ .active ∧ code = .protocolError ∧ info = 0) ∨
       (∃ n, decodeCmd x = .start n ∧ s.mode ≠ .active ∧ n.toNat % 2 = 1 ∧ code = .invalidInputLength ∧ info = n))

/-- R123: ERROR is left only by an even START, which clears the error and begins a conversion, or by a RESET; any other
command accepted in ERROR raises again, and the new error overwrites the old. -/
def Obligations.ErrorIsLeftOnlyByEvenStartOrReset : Prop :=
  ∀ s t : State, s.mode = .error → step s = .next t →
    (t.mode ≠ .error →
      (∃ ts, s.turns = .reset :: ts) ∨
      (∃ n, s.executes = some (.start n) ∧ n.toNat % 2 = 0 ∧ t.mode = .active ∧ t.errCode = .noError ∧
        t.errLen = 0)) ∧
    (∀ b0 b1, s.executes = some (.pair b0 b1) → t.mode = .error ∧ t.errCode = .protocolError ∧ t.errLen = 0) ∧
    (∀ d, s.executes = some (.illegalOp00 d) ∨ s.executes = some (.illegalOp11 d) →
      t.mode = .error ∧ t.errCode = .illegalCommand ∧ t.errLen = 0) ∧
    (∀ n, s.executes = some (.start n) → n.toNat % 2 = 1 →
      t.mode = .error ∧ t.errCode = .invalidInputLength ∧ t.errLen = n)

/-- R125: how each error shows in STATUS, in every state that meets the invariants. -/
def Obligations.ErrorsShowInStatus : Prop :=
  ∀ s : State, s.Inv → s.mode = .error →
    (s.errCode = .invalidInputLength → s.status.toNat = s.errLen.toNat * 0x10000 + 0x16) ∧
    (s.errCode = .protocolError → s.status = 0x0000001A#32) ∧
    (s.errCode = .illegalCommand → s.status = 0x0000001E#32) ∧
    (s.errCode = .invalidInputLength ∨ s.errCode = .protocolError ∨ s.errCode = .illegalCommand)

/-- No step faults, no step is refused after the first RESET, and before it the one refusal is that of R135. -/
def Obligations.EveryStepCompletesAfterReset : Prop :=
  (∀ s : State, s.wasReset = true → ∃ t, step s = .next t ∧ t.wasReset = true) ∧
  (∀ (s : State) (f : Fault), step s ≠ .fault f) ∧
  (∀ (s : State) (r : Refusal), step s = .refused r → r = .beforeFirstReset ∧ s.wasReset = false)

/-! ## Reset, hazards, order (70_reset_and_hazards.md, 20_memory.md) -/

/-- R138: the state right after RESET, with the registers of R37 that have a reset value. -/
def Obligations.ResetStateAsTheSpecSays : Prop :=
  State.reset.mode = .idle ∧ State.reset.slot = 6 ∧ State.reset.first = false ∧ State.reset.remain = 0 ∧
  State.reset.errCode = .noError ∧ State.reset.errLen = 0 ∧
  State.reset.inReady = true ∧ State.reset.outValid = false ∧ State.reset.status = 0x00000010#32

/-- R134, R136, R139: RESET from any state, before the first reset too. Nothing is said of WORD, which has no reset
value. -/
def Obligations.ResetStepFromAnyState : Prop :=
  ∀ (s : State) (ts : List Turn), s.turns = .reset :: ts →
    ∃ t, step s = .next t ∧ t.mode = .idle ∧ t.slot = 6 ∧ t.first = false ∧ t.remain = 0 ∧
      t.errCode = .noError ∧ t.errLen = 0 ∧ t.wasReset = true ∧ t.status = 0x00000010#32 ∧ t.Inv ∧
      t.roms = s.roms ∧ t.out = s.out ∧ t.inQ = s.inQ ∧ t.turns = ts

/-- R135: before the first RESET, every ACCEPT, every EMIT and every STATUS read is refused, whatever the register
fields hold, and a RESET is enabled. -/
def Obligations.NothingRunsBeforeTheFirstReset : Prop :=
  ∀ s : State, s.wasReset = false →
    readStatus s = .refused .beforeFirstReset ∧
    (∀ i, exec i s = .refused .beforeFirstReset) ∧
    (∀ ts, s.turns = .emit :: ts → step s = .refused .beforeFirstReset) ∧
    (∀ ts x rest, s.turns = .accept :: ts → s.inQ = x :: rest → step s = .refused .beforeFirstReset) ∧
    (∀ ts, s.turns = .reset :: ts → ∃ t, step s = .next t ∧ t.wasReset = true ∧ t.mode = .idle)

/-- R143 and R138: what STATUS shows outside the error state, in every state that meets the invariants. -/
def Obligations.StatusDuringAConversion : Prop :=
  ∀ s : State, s.Inv →
    (s.mode = .active → s.slot ≠ 6 → s.status = 0x00000021#32) ∧
    (s.mode = .active → s.slot = 6 → s.status = 0x00000011#32) ∧
    (s.mode = .idle → s.status = 0x00000010#32)

/-- R140: a START held while a token is pending is judged when the tokens have left: after the last syllable in IDLE,
where an even one begins a conversion; before it in ACTIVE, where it raises PROTOCOL_ERROR. -/
def Obligations.HeldStartIsJudgedWhenAccepted : Prop :=
  ∀ (s : State) (n : Length) (rest : List CmdWord) (ts : List Turn),
    s.wasReset = true → s.Inv → s.pending = true → s.inQ = (0b01#2 ++ n) :: rest →
    s.turns = List.replicate 7 .emit ++ .accept :: ts →
    ∃ t, runsTo 8 s t ∧ t.inQ = rest ∧
      (s.remain = 0 → n.toNat % 2 = 0 → t.mode = .active ∧ t.errCode = .noError ∧ t.remain.toNat = n.toNat / 2) ∧
      (s.remain = 0 → n.toNat % 2 = 1 → t.mode = .error ∧ t.errCode = .invalidInputLength ∧ t.errLen = n) ∧
      (s.remain ≠ 0 → t.mode = .error ∧ t.errCode = .protocolError)

/-- R142: while the consumer takes nothing, a pending token stays and every offered word waits, for any number of
offers. -/
def Obligations.BackpressureLosesNothing : Prop :=
  ∀ (k : Nat) (s : State) (ts : List Turn), s.wasReset = true → s.pending = true →
    s.turns = List.replicate k .accept ++ ts → runsTo k s { s with turns := ts }

/-- R141, U8: with no further PAIR offered, the block waits in ACTIVE for ever; there is no timeout. -/
def Obligations.MissingPairsHangTheBlock : Prop :=
  ∀ (k : Nat) (s : State), s.wasReset = true → s.mode = .active → s.slot = 6 → s.inQ = [] → s.OnlyTransfers →
    runsTo k s { s with turns := s.turns.drop k }

/-- R142, R146 as a bound: seven takings empty the block of what is pending, with no error and no word taken. -/
def Obligations.SevenTakingsDrainTheBlock : Prop :=
  ∀ (s : State) (ts : List Turn), s.wasReset = true → s.pending = true →
    s.turns = List.replicate 7 .emit ++ ts →
    ∃ t, runsTo 7 s t ∧ t.pending = false ∧ t.mode ≠ .error ∧ t.inQ = s.inQ ∧ t.turns = ts ∧ s.out <+: t.out

/-- R56, R57: words leave IN one at a time, from the front, only when the host withdraws or the block accepts, and the
block accepts only with no token pending and hands out none in that step. -/
def Obligations.WordsAreTakenInOrderWithNothingPending : Prop :=
  ∀ s t : State, step s = .next t → t.inQ ≠ s.inQ →
    (∃ ts, s.turns = .withdraw :: ts ∧ t.inQ = s.inQ.tail ∧ t = { s with turns := ts, inQ := t.inQ }) ∨
    (∃ x ts, s.turns = .accept :: ts ∧ s.inQ = x :: t.inQ ∧ s.pending = false ∧ t.out = s.out)

/-- D28, R38: what WORD holds while no character is made from it cannot be observed: two states that agree but for
that step alike, and agree so again. -/
def Obligations.IdleWordIsUnobservable : Prop :=
  ∀ s s' t : State, s.AgreeButIdleWord s' → step s = .next t → ∃ t', step s' = .next t' ∧ t.AgreeButIdleWord t'

/-! ## One step and the decoder -/

/-- R97: with ACCEPT enabled and the host's move next, the step is exec of what the offered word decodes to, with the
turn and the word taken. -/
def Obligations.StepRunsTheOfferedCommand : Prop :=
  ∀ (s : State) (x : CmdWord) (i : Instr) (rest : List CmdWord) (ts : List Turn),
    s.wasReset = true → s.inReady = true → s.turns = .accept :: ts → s.inQ = x :: rest → decode (.cmd x) = .ok i →
    s.executes = some i ∧ step s = exec i { s with turns := ts, inQ := rest }

/-- R107: with a token pending and the consumer's move next, the step is exec of what the token's word decodes to, with
the turn taken, in every ROM the spec allows. -/
def Obligations.StepRunsThePendingToken : Prop :=
  ∀ (s : State) (tok : Token) (i : Instr) (ts : List Turn),
    s.wasReset = true → s.roms.legal → s.turns = .emit :: ts → s.outToken = some tok → decode (.tok tok.word) = .ok i →
    s.executes = some i ∧ step s = exec i { s with turns := ts }

/-- Placing a table word makes it the transfer of the very next step, from any state (the model's own operation, log
entry 6). -/
def Obligations.PlacedWordIsExecutedNext : Prop :=
  ∀ (s : State) (nbits w : Nat) (i : Instr), decodeTableWord nbits w = some i →
    (s.withFetchWord nbits w).executes = some i
end

