-- ==== Sys2Proof/Laws/Decode.lean ====
section
/-! SUPPORT. Laws/Decode.lean: the fields of a word that is built from its fields, one lemma per field. -/

namespace Sys2Proof

/-- The high part of a concatenation (R9). -/
theorem extract_high {m n : Nat} (a : BitVec m) (b : BitVec n) : (a ++ b).extractLsb' n m = a := by
  ext i hi
  simp [BitVec.getLsbD_append, hi]

/-- The low part of a concatenation (R9). -/
theorem extract_low {m n : Nat} (a : BitVec m) (b : BitVec n) : (a ++ b).extractLsb' 0 n = b := by
  ext i hi
  simp [BitVec.getLsbD_append, hi]

/-- A word is the concatenation of its high and low parts. -/
theorem append_extract {m n : Nat} (x : BitVec (m + n)) : x.extractLsb' n m ++ x.extractLsb' 0 n = x := by
  ext i hi
  rw [BitVec.getElem_append]
  split
  · simp [BitVec.getLsbD_eq_getElem hi]
  · rw [BitVec.getElem_extractLsb', show n + (i - n) = i by omega, BitVec.getLsbD_eq_getElem hi]

theorem opField_cmdWord (op : BitVec 2) (d : BitVec 16) : opField (cmdWord op d) = op := extract_high op d

theorem dataField_cmdWord (op : BitVec 2) (d : BitVec 16) : dataField (cmdWord op d) = d := extract_low op d

theorem cmdWord_fields (x : CmdWord) : cmdWord (opField x) (dataField x) = x := append_extract (m := 2) (n := 16) x

theorem highByte_append (b0 b1 : Byte) : highByte (b0 ++ b1) = b0 := extract_high b0 b1

theorem lowByte_append (b0 b1 : Byte) : lowByte (b0 ++ b1) = b1 := extract_low b0 b1

theorem append_bytes (d : BitVec 16) : highByte d ++ lowByte d = d := append_extract (m := 8) (n := 8) d

theorem codeField_char (c : Byte) : codeField (Token.char c).word = c := extract_low 0#1 c

theorem kindBit_char (c : Byte) : kindBit (Token.char c).word = false := by
  have h : (0#1 ++ c).getLsbD 8 = false := by rw [BitVec.getLsbD_append]; simp
  exact h

/-- A word's decoding is decided by OP, one line per row of R65. -/
theorem decodeCmd_cmdWord (op : BitVec 2) (d : BitVec 16) :
    decodeCmd (cmdWord op d) =
      if op = 0b01#2 then .start d else if op = 0b10#2 then .pair (highByte d) (lowByte d)
      else if op = 0b00#2 then .illegalOp00 d else .illegalOp11 d := by
  unfold decodeCmd
  rw [opField_cmdWord, dataField_cmdWord]

end Sys2Proof
end

