-- ==== Sys2Proof/Laws/State.lean ====
section
/-! SUPPORT. Laws/State.lean: what each update of the state leaves in each field, one lemma per field and update. -/

namespace Sys2Proof.Machine

@[simp] theorem raise_mode (e : Err) (info : Length) (s : State) : (raise e info s).mode = .error := rfl
@[simp] theorem raise_slot (e : Err) (info : Length) (s : State) : (raise e info s).slot = 6 := rfl
@[simp] theorem raise_first (e : Err) (info : Length) (s : State) : (raise e info s).first = false := rfl
@[simp] theorem raise_remain (e : Err) (info : Length) (s : State) : (raise e info s).remain = 0 := rfl
@[simp] theorem raise_word (e : Err) (info : Length) (s : State) : (raise e info s).word = s.word := rfl
@[simp] theorem raise_errCode (e : Err) (info : Length) (s : State) : (raise e info s).errCode = e.code := rfl
@[simp] theorem raise_errLen (e : Err) (info : Length) (s : State) : (raise e info s).errLen = info := rfl
@[simp] theorem raise_roms (e : Err) (info : Length) (s : State) : (raise e info s).roms = s.roms := rfl
@[simp] theorem raise_wasReset (e : Err) (info : Length) (s : State) : (raise e info s).wasReset = s.wasReset := rfl
@[simp] theorem raise_inQ (e : Err) (info : Length) (s : State) : (raise e info s).inQ = s.inQ := rfl
@[simp] theorem raise_turns (e : Err) (info : Length) (s : State) : (raise e info s).turns = s.turns := rfl
@[simp] theorem raise_out (e : Err) (info : Length) (s : State) : (raise e info s).out = s.out := rfl
@[simp] theorem raise_freeIdx (e : Err) (info : Length) (s : State) : (raise e info s).freeIdx = s.freeIdx := rfl

@[simp] theorem clearError_mode (s : State) : (clearError s).mode = s.mode := rfl
@[simp] theorem clearError_slot (s : State) : (clearError s).slot = s.slot := rfl
@[simp] theorem clearError_first (s : State) : (clearError s).first = s.first := rfl
@[simp] theorem clearError_remain (s : State) : (clearError s).remain = s.remain := rfl
@[simp] theorem clearError_word (s : State) : (clearError s).word = s.word := rfl
@[simp] theorem clearError_errCode (s : State) : (clearError s).errCode = .noError := rfl
@[simp] theorem clearError_errLen (s : State) : (clearError s).errLen = 0 := rfl
@[simp] theorem clearError_roms (s : State) : (clearError s).roms = s.roms := rfl
@[simp] theorem clearError_wasReset (s : State) : (clearError s).wasReset = s.wasReset := rfl
@[simp] theorem clearError_inQ (s : State) : (clearError s).inQ = s.inQ := rfl
@[simp] theorem clearError_turns (s : State) : (clearError s).turns = s.turns := rfl
@[simp] theorem clearError_out (s : State) : (clearError s).out = s.out := rfl
@[simp] theorem clearError_freeIdx (s : State) : (clearError s).freeIdx = s.freeIdx := rfl

@[simp] theorem emitToken_mode (t : Token) (s : State) : (emitToken t s).mode = s.mode := rfl
@[simp] theorem emitToken_slot (t : Token) (s : State) : (emitToken t s).slot = s.slot := rfl
@[simp] theorem emitToken_first (t : Token) (s : State) : (emitToken t s).first = s.first := rfl
@[simp] theorem emitToken_remain (t : Token) (s : State) : (emitToken t s).remain = s.remain := rfl
@[simp] theorem emitToken_word (t : Token) (s : State) : (emitToken t s).word = s.word := rfl
@[simp] theorem emitToken_errCode (t : Token) (s : State) : (emitToken t s).errCode = s.errCode := rfl
@[simp] theorem emitToken_errLen (t : Token) (s : State) : (emitToken t s).errLen = s.errLen := rfl
@[simp] theorem emitToken_roms (t : Token) (s : State) : (emitToken t s).roms = s.roms := rfl
@[simp] theorem emitToken_wasReset (t : Token) (s : State) : (emitToken t s).wasReset = s.wasReset := rfl
@[simp] theorem emitToken_inQ (t : Token) (s : State) : (emitToken t s).inQ = s.inQ := rfl
@[simp] theorem emitToken_turns (t : Token) (s : State) : (emitToken t s).turns = s.turns := rfl
@[simp] theorem emitToken_out (t : Token) (s : State) : (emitToken t s).out = s.out ++ [t] := rfl
@[simp] theorem emitToken_freeIdx (t : Token) (s : State) : (emitToken t s).freeIdx = s.freeIdx := rfl

@[simp] theorem resetBlock_mode (s : State) : (resetBlock s).mode = .idle := rfl
@[simp] theorem resetBlock_slot (s : State) : (resetBlock s).slot = 6 := rfl
@[simp] theorem resetBlock_first (s : State) : (resetBlock s).first = false := rfl
@[simp] theorem resetBlock_remain (s : State) : (resetBlock s).remain = 0 := rfl
@[simp] theorem resetBlock_word (s : State) : (resetBlock s).word = Config.freeWord s.freeIdx := rfl
@[simp] theorem resetBlock_errCode (s : State) : (resetBlock s).errCode = .noError := rfl
@[simp] theorem resetBlock_errLen (s : State) : (resetBlock s).errLen = 0 := rfl
@[simp] theorem resetBlock_roms (s : State) : (resetBlock s).roms = s.roms := rfl
@[simp] theorem resetBlock_wasReset (s : State) : (resetBlock s).wasReset = true := rfl
@[simp] theorem resetBlock_inQ (s : State) : (resetBlock s).inQ = s.inQ := rfl
@[simp] theorem resetBlock_turns (s : State) : (resetBlock s).turns = s.turns := rfl
@[simp] theorem resetBlock_out (s : State) : (resetBlock s).out = s.out := rfl
@[simp] theorem resetBlock_freeIdx (s : State) : (resetBlock s).freeIdx = s.freeIdx + 1 := rfl

@[simp] theorem beginConversion_mode (n : Length) (s : State) : (beginConversion n s).mode = .active := rfl
@[simp] theorem beginConversion_slot (n : Length) (s : State) : (beginConversion n s).slot = if n = 0 then 7 else 6 := rfl
@[simp] theorem beginConversion_first (n : Length) (s : State) : (beginConversion n s).first = true := rfl
@[simp] theorem beginConversion_remain (n : Length) (s : State) : (beginConversion n s).remain = pairCount n := rfl
@[simp] theorem beginConversion_word (n : Length) (s : State) : (beginConversion n s).word = s.word := rfl
@[simp] theorem beginConversion_errCode (n : Length) (s : State) : (beginConversion n s).errCode = .noError := rfl
@[simp] theorem beginConversion_errLen (n : Length) (s : State) : (beginConversion n s).errLen = 0 := rfl
@[simp] theorem beginConversion_roms (n : Length) (s : State) : (beginConversion n s).roms = s.roms := rfl
@[simp] theorem beginConversion_wasReset (n : Length) (s : State) : (beginConversion n s).wasReset = s.wasReset := rfl
@[simp] theorem beginConversion_inQ (n : Length) (s : State) : (beginConversion n s).inQ = s.inQ := rfl
@[simp] theorem beginConversion_turns (n : Length) (s : State) : (beginConversion n s).turns = s.turns := rfl
@[simp] theorem beginConversion_out (n : Length) (s : State) : (beginConversion n s).out = s.out := rfl
@[simp] theorem beginConversion_freeIdx (n : Length) (s : State) : (beginConversion n s).freeIdx = s.freeIdx := rfl

@[simp] theorem loadPair_mode (w : PairWord) (s : State) : (loadPair w s).mode = s.mode := rfl
@[simp] theorem loadPair_slot (w : PairWord) (s : State) : (loadPair w s).slot = if s.first then 1 else 0 := rfl
@[simp] theorem loadPair_first (w : PairWord) (s : State) : (loadPair w s).first = false := rfl
@[simp] theorem loadPair_remain (w : PairWord) (s : State) : (loadPair w s).remain = s.remain - 1 := rfl
@[simp] theorem loadPair_word (w : PairWord) (s : State) : (loadPair w s).word = w := rfl
@[simp] theorem loadPair_errCode (w : PairWord) (s : State) : (loadPair w s).errCode = s.errCode := rfl
@[simp] theorem loadPair_errLen (w : PairWord) (s : State) : (loadPair w s).errLen = s.errLen := rfl
@[simp] theorem loadPair_roms (w : PairWord) (s : State) : (loadPair w s).roms = s.roms := rfl
@[simp] theorem loadPair_wasReset (w : PairWord) (s : State) : (loadPair w s).wasReset = s.wasReset := rfl
@[simp] theorem loadPair_inQ (w : PairWord) (s : State) : (loadPair w s).inQ = s.inQ := rfl
@[simp] theorem loadPair_turns (w : PairWord) (s : State) : (loadPair w s).turns = s.turns := rfl
@[simp] theorem loadPair_out (w : PairWord) (s : State) : (loadPair w s).out = s.out := rfl
@[simp] theorem loadPair_freeIdx (w : PairWord) (s : State) : (loadPair w s).freeIdx = s.freeIdx := rfl

@[simp] theorem hyphenEffect_mode (s : State) : (hyphenEffect s).mode = s.mode := rfl
@[simp] theorem hyphenEffect_slot (s : State) : (hyphenEffect s).slot = 1 := rfl
@[simp] theorem hyphenEffect_first (s : State) : (hyphenEffect s).first = s.first := rfl
@[simp] theorem hyphenEffect_remain (s : State) : (hyphenEffect s).remain = s.remain := rfl
@[simp] theorem hyphenEffect_word (s : State) : (hyphenEffect s).word = s.word := rfl
@[simp] theorem hyphenEffect_errCode (s : State) : (hyphenEffect s).errCode = s.errCode := rfl
@[simp] theorem hyphenEffect_errLen (s : State) : (hyphenEffect s).errLen = s.errLen := rfl
@[simp] theorem hyphenEffect_roms (s : State) : (hyphenEffect s).roms = s.roms := rfl
@[simp] theorem hyphenEffect_wasReset (s : State) : (hyphenEffect s).wasReset = s.wasReset := rfl
@[simp] theorem hyphenEffect_inQ (s : State) : (hyphenEffect s).inQ = s.inQ := rfl
@[simp] theorem hyphenEffect_turns (s : State) : (hyphenEffect s).turns = s.turns := rfl
@[simp] theorem hyphenEffect_out (s : State) : (hyphenEffect s).out = s.out ++ [.char Config.hyphenCode] := rfl
@[simp] theorem hyphenEffect_freeIdx (s : State) : (hyphenEffect s).freeIdx = s.freeIdx := rfl

@[simp] theorem charEffect_mode (c : Byte) (s : State) : (charEffect c s).mode = s.mode := rfl
@[simp] theorem charEffect_slot (c : Byte) (s : State) : (charEffect c s).slot = slotAfterChar s := rfl
@[simp] theorem charEffect_first (c : Byte) (s : State) : (charEffect c s).first = s.first := rfl
@[simp] theorem charEffect_remain (c : Byte) (s : State) : (charEffect c s).remain = s.remain := rfl
@[simp] theorem charEffect_word (c : Byte) (s : State) : (charEffect c s).word = s.word := rfl
@[simp] theorem charEffect_errCode (c : Byte) (s : State) : (charEffect c s).errCode = s.errCode := rfl
@[simp] theorem charEffect_errLen (c : Byte) (s : State) : (charEffect c s).errLen = s.errLen := rfl
@[simp] theorem charEffect_roms (c : Byte) (s : State) : (charEffect c s).roms = s.roms := rfl
@[simp] theorem charEffect_wasReset (c : Byte) (s : State) : (charEffect c s).wasReset = s.wasReset := rfl
@[simp] theorem charEffect_inQ (c : Byte) (s : State) : (charEffect c s).inQ = s.inQ := rfl
@[simp] theorem charEffect_turns (c : Byte) (s : State) : (charEffect c s).turns = s.turns := rfl
@[simp] theorem charEffect_out (c : Byte) (s : State) : (charEffect c s).out = s.out ++ [.char c] := rfl
@[simp] theorem charEffect_freeIdx (c : Byte) (s : State) : (charEffect c s).freeIdx = s.freeIdx := rfl

@[simp] theorem endEffect_mode (s : State) : (endEffect s).mode = .idle := rfl
@[simp] theorem endEffect_slot (s : State) : (endEffect s).slot = 6 := rfl
@[simp] theorem endEffect_first (s : State) : (endEffect s).first = false := rfl
@[simp] theorem endEffect_remain (s : State) : (endEffect s).remain = s.remain := rfl
@[simp] theorem endEffect_word (s : State) : (endEffect s).word = s.word := rfl
@[simp] theorem endEffect_errCode (s : State) : (endEffect s).errCode = s.errCode := rfl
@[simp] theorem endEffect_errLen (s : State) : (endEffect s).errLen = s.errLen := rfl
@[simp] theorem endEffect_roms (s : State) : (endEffect s).roms = s.roms := rfl
@[simp] theorem endEffect_wasReset (s : State) : (endEffect s).wasReset = s.wasReset := rfl
@[simp] theorem endEffect_inQ (s : State) : (endEffect s).inQ = s.inQ := rfl
@[simp] theorem endEffect_turns (s : State) : (endEffect s).turns = s.turns := rfl
@[simp] theorem endEffect_out (s : State) : (endEffect s).out = s.out ++ [.fin] := rfl
@[simp] theorem endEffect_freeIdx (s : State) : (endEffect s).freeIdx = s.freeIdx := rfl

end Sys2Proof.Machine
end

