-- ==== Sys2Proof/Laws/Ops.lean ====
section
/-! SUPPORT. Laws/Ops.lean: what the shared operations can do, said once each. -/

namespace Sys2Proof.Machine

variable {s t a : State}

theorem pending_eq_true : s.pending = true ↔ s.mode = .active ∧ s.slot ≠ 6 := by simp [State.pending]

theorem pending_eq_false : s.pending = false ↔ (s.mode = .active → s.slot = 6) := by simp [State.pending]

theorem inReady_eq_true : s.inReady = true ↔ s.pending = false := by simp [State.inReady]

theorem inReady_eq_false : s.inReady = false ↔ s.pending = true := by simp [State.inReady]

/-- Everything the IN handshake can answer. -/
theorem onAccept_next (h : onAccept s a = .next t) :
    s.wasReset = true ∧ ((s.pending = false ∧ t = a) ∨ (s.pending = true ∧ t = s)) := by
  unfold onAccept at h
  split at h
  · split at h
    · exact ⟨‹_›, .inl ⟨inReady_eq_true.mp ‹_›, by simpa using h.symm⟩⟩
    · rename_i hr hn
      exact ⟨hr, .inr ⟨inReady_eq_false.mp (by simpa using hn), by simpa using h.symm⟩⟩
  · cases h

theorem onAccept_ready (hr : s.wasReset = true) (hp : s.pending = false) : onAccept s a = .next a := by
  simp [onAccept, hr, inReady_eq_true.mpr hp]

theorem onAccept_held (hr : s.wasReset = true) (hp : s.pending = true) : onAccept s a = .next s := by
  simp [onAccept, hr, inReady_eq_false.mpr hp]

theorem onAccept_unreset (hr : s.wasReset = false) : onAccept s a = .refused .beforeFirstReset := by
  simp [onAccept, hr]

/-- Everything the OUT handshake can answer. -/
theorem onEmit_next {due : Bool} (h : onEmit s due a = .next t) :
    s.wasReset = true ∧
      ((s.pending = true ∧ due = true ∧ t = a) ∨ ((s.pending = false ∨ due = false) ∧ t = s)) := by
  unfold onEmit at h
  split at h
  · refine ⟨‹_›, ?_⟩
    split at h
    · rename_i hd
      simp only [Bool.and_eq_true] at hd
      exact .inl ⟨hd.1, hd.2, by simpa using h.symm⟩
    · rename_i hd
      rw [Bool.not_eq_true, Bool.and_eq_false_iff] at hd
      exact .inr ⟨hd, by simpa using h.symm⟩
  · cases h

theorem onEmit_due (hr : s.wasReset = true) (hp : s.pending = true) : onEmit s true a = .next a := by
  simp [onEmit, hr, State.outValid, hp]

theorem onEmit_notDue {due : Bool} (hr : s.wasReset = true) (hd : s.pending = false ∨ due = false) :
    onEmit s due a = .next s := by
  rcases hd with hd | hd <;> simp [onEmit, hr, State.outValid, hd]

theorem onEmit_unreset {due : Bool} (hr : s.wasReset = false) : onEmit s due a = .refused .beforeFirstReset := by
  simp [onEmit, hr]

/-- The character multiplexer on the five slots it serves, as the syllable's characters. -/
theorem charmux_eq_syllable (r : Roms) (w : PairWord) (k : BitVec 3) (h1 : 1 ≤ k) (h5 : k ≤ 5) :
    charmux r w k = (syllable r w)[k.toNat - 1]? := by
  revert h1 h5
  have hk : k = 0 ∨ k = 1 ∨ k = 2 ∨ k = 3 ∨ k = 4 ∨ k = 5 ∨ k = 6 ∨ k = 7 := by revert k; decide
  rcases hk with rfl | rfl | rfl | rfl | rfl | rfl | rfl | rfl <;> intro h1 h5 <;>
    first | rfl | exact absurd h1 (by decide)

/-- It has a value exactly on the slots 1 to 5. -/
theorem charmux_isSome (r : Roms) (w : PairWord) (k : BitVec 3) :
    (charmux r w k).isSome = decide (1 ≤ k ∧ k ≤ 5) := by
  have hk : k = 0 ∨ k = 1 ∨ k = 2 ∨ k = 3 ∨ k = 4 ∨ k = 5 ∨ k = 6 ∨ k = 7 := by revert k; decide
  rcases hk with rfl | rfl | rfl | rfl | rfl | rfl | rfl | rfl <;> rfl

end Sys2Proof.Machine
end

