-- ==== Sys2Proof/Laws/PerInstr.lean ====
section
/-! SUPPORT. Laws/PerInstr.lean: the family RowMatch: an instruction's encoding shows the fixed bits of its row of the
opcode map, on the row's port (30_encoding.md R75). -/

namespace Sys2Proof.Laws.RowMatch

/-- The encoding of `i` lies in its row of R75. -/
def Statement (i : Instr) : Prop := i.row.fits (encode i) = true

/-- Under the mask of OP, a CMD word shows the OP it was built with. -/
theorem cmdWord_masked (op : BitVec 2) (d : BitVec 16) : (cmdWord op d &&& 0x30000#18) = cmdWord op 0 := by
  have h : (op ++ d) &&& (3#2 ++ 0#16) = op ++ 0#16 := by
    rw [BitVec.and_append, show (3#2 : BitVec 2) = BitVec.allOnes 2 by decide, BitVec.and_allOnes, BitVec.and_zero]
  exact h

/-- Under the mask of K, a CHAR word shows 0. -/
theorem charWord_masked (c : Byte) : ((Token.char c).word &&& 0x100#9) = 0 := by
  have h : (0#1 ++ c) &&& (1#1 ++ 0#8) = 0#1 ++ 0#8 := by rw [BitVec.and_append, BitVec.zero_and, BitVec.and_zero]
  exact h

theorem start (n : Length) : Statement (.start n) :=
  beq_iff_eq.mpr ((cmdWord_masked 0b01#2 n).trans (show cmdWord 0b01#2 0 = 0x10000#18 by decide))

theorem pair (b0 b1 : Byte) : Statement (.pair b0 b1) :=
  beq_iff_eq.mpr ((cmdWord_masked 0b10#2 (b0 ++ b1)).trans (show cmdWord 0b10#2 0 = 0x20000#18 by decide))

theorem illegalOp00 (data : BitVec 16) : Statement (.illegalOp00 data) :=
  beq_iff_eq.mpr ((cmdWord_masked 0b00#2 data).trans (show cmdWord 0b00#2 0 = 0x00000#18 by decide))

theorem illegalOp11 (data : BitVec 16) : Statement (.illegalOp11 data) :=
  beq_iff_eq.mpr ((cmdWord_masked 0b11#2 data).trans (show cmdWord 0b11#2 0 = 0x30000#18 by decide))

theorem hyphen : Statement .hyphen := by unfold Statement; decide

theorem char (c : Byte) : Statement (.char c) := beq_iff_eq.mpr (charWord_masked c)

theorem endTok : Statement .endTok := by unfold Statement; decide

end Sys2Proof.Laws.RowMatch
end

