-- ==== Sys2Proof/Laws/Step.lean ====
section
/-! SUPPORT. Laws/Step.lean: everything one instruction and one step can do, and the run as its steps. -/

namespace Sys2Proof.Machine

variable {s t : State}

/-- What an instruction of the IN port does in the ACCEPT step that takes it; a token row does nothing there. -/
def commandEffect (i : Instr) (s : State) : State :=
  match i with
  | .start n => startEffect n s
  | .pair b0 b1 => pairEffect (pairWord b0 b1) s
  | .illegalOp00 _ => raise .illegalCommand 0 s
  | .illegalOp11 _ => raise .illegalCommand 0 s
  | .hyphen => s
  | .char _ => s
  | .endTok => s

/-- What handing out the pending token does: exactly one of R108, R109 and R110 applies, chosen by SLOT. -/
def EmitEffect (s t : State) : Prop :=
  (s.slot = 0 ∧ t = hyphenEffect s) ∨
  (1 ≤ s.slot ∧ s.slot ≤ 5 ∧ ∃ c, charmux s.roms s.word s.slot = some c ∧ t = charEffect c s) ∨
  (s.slot = 7 ∧ t = endEffect s)

/-- A decoded IN word is a command, executed by the IN handshake around its effect. -/
theorem exec_decodeCmd (x : CmdWord) (s : State) :
    exec (decodeCmd x) s = onAccept s (commandEffect (decodeCmd x) s) := by
  unfold decodeCmd
  split
  · rfl
  · split
    · rfl
    · split <;> rfl

/-- With a token pending, its instruction is handed out. -/
theorem exec_pending (hr : s.wasReset = true) (hp : s.pending = true) :
    ∃ i t, pendingInstr s = some i ∧ exec i s = .next t ∧ EmitEffect s t := by
  have h6 := (pending_eq_true.mp hp).2
  by_cases h0 : s.slot = 0
  · exact ⟨.hyphen, hyphenEffect s, by simp [pendingInstr, hp, h0],
      by simpa [exec, execHyphen, h0] using onEmit_due hr hp, .inl ⟨h0, rfl⟩⟩
  by_cases h7 : s.slot = 7
  · exact ⟨.endTok, endEffect s, by simp [pendingInstr, hp, h7],
      by simpa [exec, execEnd, h7] using onEmit_due hr hp, .inr (.inr ⟨h7, rfl⟩)⟩
  have hk : 1 ≤ s.slot ∧ s.slot ≤ 5 := by
    revert h6 h0 h7
    generalize s.slot = k
    revert k
    decide
  obtain ⟨c, hc⟩ : ∃ c, charmux s.roms s.word s.slot = some c := by
    have h := charmux_isSome s.roms s.word s.slot
    rw [decide_eq_true hk] at h
    exact Option.isSome_iff_exists.mp h
  exact ⟨.char c, charEffect c s, by
    unfold pendingInstr
    rw [if_pos hp, if_neg h0, if_neg h7, hc]
    rfl,
    by simpa [exec, execChar, hc] using onEmit_due hr hp, .inr (.inl ⟨hk.1, hk.2, c, hc, rfl⟩)⟩

theorem pendingInstr_none (hp : s.pending = false) : pendingInstr s = none := by simp [pendingInstr, hp]

/-- Popping the turn changes no signal. -/
@[simp] theorem pending_turns (ts : List Turn) : ({ s with turns := ts }).pending = s.pending := rfl

@[simp] theorem pending_inQ (q : List CmdWord) (ts : List Turn) :
    ({ s with turns := ts, inQ := q }).pending = s.pending := rfl

theorem step_wait (h : s.turns = []) : step s = .next s := by simp [step, takeTurn, h]

/-- With a turn to take, the step is that turn's move with the turn taken. -/
theorem step_turn {u : Turn} {ts : List Turn} (h : s.turns = u :: ts) : step s = playTurn u { s with turns := ts } := by
  unfold step takeTurn
  rw [h]

theorem acceptTurn_cons {x : CmdWord} {rest : List CmdWord} (hq : s.inQ = x :: rest) (hr : s.wasReset = true)
    (hp : s.pending = false) : acceptTurn s = .next (commandEffect (decodeCmd x) { s with inQ := rest }) := by
  unfold acceptTurn
  rw [hq]
  dsimp only
  rw [if_pos hr, if_pos (inReady_eq_true.mpr hp), exec_decodeCmd]
  exact onAccept_ready hr hp

theorem acceptTurn_held (h : s.inQ = [] ∨ (s.wasReset = true ∧ s.pending = true)) : acceptTurn s = .next s := by
  unfold acceptTurn
  split
  · rfl
  · rename_i x rest hq
    obtain ⟨hr, hp⟩ := h.resolve_left (by simp [hq])
    rw [if_pos hr, if_neg (by simp [inReady_eq_false.mpr hp])]

theorem acceptTurn_unreset (hr : s.wasReset = false) (hq : s.inQ ≠ []) :
    acceptTurn s = .refused .beforeFirstReset := by
  unfold acceptTurn
  split
  · exact absurd ‹_› hq
  · rw [if_neg (by simp [hr])]

theorem emitTurn_pending (hr : s.wasReset = true) (hp : s.pending = true) :
    ∃ t, emitTurn s = .next t ∧ EmitEffect s t := by
  obtain ⟨i, t, hi, he, ht⟩ := exec_pending hr hp
  refine ⟨t, ?_, ht⟩
  unfold emitTurn
  rw [if_pos hr, hi]
  exact he

theorem emitTurn_idle (hr : s.wasReset = true) (hp : s.pending = false) : emitTurn s = .next s := by
  unfold emitTurn
  rw [if_pos hr, pendingInstr_none hp]

theorem emitTurn_unreset (hr : s.wasReset = false) : emitTurn s = .refused .beforeFirstReset := by
  unfold emitTurn
  rw [if_neg (by simp [hr])]

theorem step_accept {x : CmdWord} {rest : List CmdWord} {ts : List Turn} (ht : s.turns = .accept :: ts)
    (hq : s.inQ = x :: rest) (hr : s.wasReset = true) (hp : s.pending = false) :
    step s = .next (commandEffect (decodeCmd x) { s with turns := ts, inQ := rest }) :=
  (step_turn ht).trans (acceptTurn_cons (s := { s with turns := ts }) hq hr hp)

theorem step_accept_held {ts : List Turn} (ht : s.turns = .accept :: ts)
    (h : s.inQ = [] ∨ (s.wasReset = true ∧ s.pending = true)) : step s = .next { s with turns := ts } :=
  (step_turn ht).trans (acceptTurn_held (s := { s with turns := ts }) h)

theorem step_emit {ts : List Turn} (ht : s.turns = .emit :: ts) (hr : s.wasReset = true) (hp : s.pending = true) :
    ∃ t, step s = .next t ∧ EmitEffect { s with turns := ts } t := by
  obtain ⟨t, h, he⟩ := emitTurn_pending (s := { s with turns := ts }) hr hp
  exact ⟨t, (step_turn ht).trans h, he⟩

theorem step_emit_idle {ts : List Turn} (ht : s.turns = .emit :: ts) (hr : s.wasReset = true)
    (hp : s.pending = false) : step s = .next { s with turns := ts } :=
  (step_turn ht).trans (emitTurn_idle (s := { s with turns := ts }) hr hp)

theorem step_reset {ts : List Turn} (ht : s.turns = .reset :: ts) :
    step s = .next (resetBlock { s with turns := ts }) := step_turn ht

theorem step_withdraw {ts : List Turn} (ht : s.turns = .withdraw :: ts) :
    step s = .next { s with turns := ts, inQ := s.inQ.tail } := step_turn ht

/-- Everything a step that completes can have done. -/
theorem step_cases (h : step s = .next t) :
    (s.turns = [] ∧ t = s) ∨ ∃ u ts, s.turns = u :: ts ∧
      ((u = .accept ∧ (s.inQ = [] ∨ (s.wasReset = true ∧ s.pending = true)) ∧ t = { s with turns := ts }) ∨
       (u = .accept ∧ ∃ x rest, s.inQ = x :: rest ∧ s.wasReset = true ∧ s.pending = false ∧
          t = commandEffect (decodeCmd x) { s with turns := ts, inQ := rest }) ∨
       (u = .emit ∧ s.wasReset = true ∧ s.pending = false ∧ t = { s with turns := ts }) ∨
       (u = .emit ∧ s.wasReset = true ∧ s.pending = true ∧ EmitEffect { s with turns := ts } t) ∨
       (u = .reset ∧ t = resetBlock { s with turns := ts }) ∨
       (u = .withdraw ∧ t = { s with turns := ts, inQ := s.inQ.tail })) := by
  rcases ht : s.turns with _ | ⟨u, ts⟩
  · rw [step_wait ht] at h
    exact .inl ⟨rfl, by simpa using h.symm⟩
  refine .inr ⟨u, ts, rfl, ?_⟩
  cases u with
  | accept =>
    by_cases hq : s.inQ = [] ∨ (s.wasReset = true ∧ s.pending = true)
    · rw [step_accept_held ht hq, Host.Outcome.next.injEq] at h
      exact .inl ⟨rfl, hq, h.symm⟩
    · obtain ⟨x, rest, hx⟩ := List.exists_cons_of_ne_nil (fun h => hq (.inl h))
      rcases Bool.eq_false_or_eq_true s.wasReset with hr | hr
      rotate_left
      · rw [step_turn ht] at h
        rw [playTurn, acceptTurn_unreset (s := { s with turns := ts }) hr (by simp [hx])] at h
        cases h
      · have hp : s.pending = false := by
          rw [← Bool.not_eq_true]
          exact fun hp => hq (.inr ⟨hr, hp⟩)
        rw [step_accept ht hx hr hp, Host.Outcome.next.injEq] at h
        exact .inr (.inl ⟨rfl, x, rest, hx, hr, hp, h.symm⟩)
  | emit =>
    rcases Bool.eq_false_or_eq_true s.wasReset with hr | hr
    rotate_left
    · rw [step_turn ht] at h
      rw [playTurn, emitTurn_unreset (s := { s with turns := ts }) hr] at h
      cases h
    rcases Bool.eq_false_or_eq_true s.pending with hp | hp
    rotate_left
    · rw [step_emit_idle ht hr hp, Host.Outcome.next.injEq] at h
      exact .inr (.inr (.inl ⟨rfl, hr, hp, h.symm⟩))
    · obtain ⟨t', h', he⟩ := step_emit ht hr hp
      rw [h', Host.Outcome.next.injEq] at h
      subst h
      exact .inr (.inr (.inr (.inl ⟨rfl, hr, hp, he⟩)))
  | reset =>
    rw [step_reset ht, Host.Outcome.next.injEq] at h
    exact .inr (.inr (.inr (.inr (.inl ⟨rfl, h.symm⟩))))
  | withdraw =>
    rw [step_withdraw ht, Host.Outcome.next.injEq] at h
    exact .inr (.inr (.inr (.inr (.inr ⟨rfl, h.symm⟩))))

theorem runsTo_zero : runsTo 0 s t ↔ t = s := Iff.rfl

/-- A run is its first step and the rest. -/
theorem runsTo_succ {k : Nat} : runsTo (k + 1) s t ↔ ∃ u, step s = .next u ∧ runsTo k u t := Iff.rfl

/-- The run of the statements is the host's run of the core. -/
theorem core_run_of_runsTo {k : Nat} (h : runsTo k s t) : Host.Core.run Sys2Proof.core k s = .next t := by
  induction k generalizing s with
  | zero =>
    obtain rfl := h
    rfl
  | succ k ih =>
    obtain ⟨u, hu, hr⟩ := h
    have hs : Host.Core.step Sys2Proof.core s = .next u := hu
    refine (Host.Core.run.eq_2 Sys2Proof.core s k).trans ?_
    generalize Host.Core.step Sys2Proof.core s = o at hs
    subst hs
    exact ih hr

/-- Runs compose. -/
theorem runsTo_add {j k : Nat} {u : State} (h : runsTo j s u) (h' : runsTo k u t) : runsTo (j + k) s t := by
  induction j generalizing s with
  | zero =>
    obtain rfl := runsTo_zero.mp h
    simpa using h'
  | succ j ih =>
    obtain ⟨v, hv, hr⟩ := runsTo_succ.mp h
    rw [Nat.succ_add]
    exact runsTo_succ.mpr ⟨v, hv, ih hr⟩

end Sys2Proof.Machine
end

