-- ==== Sys2Proof/Tests/Slice0.lean ====
section
/-! SUPPORT. Tests/Slice0.lean: the author's tests. Expected values are written out from spec/95_test_vectors.md (the
section is named beside each group) or from the encodings of 30_encoding.md. The last part holds a witness for the
hypotheses of every statement that has some. -/

open Sys2Proof Sys2Proof.Machine

namespace Sys2Proof.Tests

/-! ## Helpers -/

/-- The state a step leads to; the state itself where it stops. -/
def after (o : Host.Outcome State Fault Refusal) (s : State) : State :=
  match o with
  | .next t => t
  | .fault _ => s
  | .refused _ => s

/-- A reset block with the words `q` offered and the turns `ts` to come. -/
def offered (q : List CmdWord) (ts : List Turn) : State := { State.reset with inQ := q, turns := ts }

/-- A block in a conversion: at slot `k`, with `r` pairs still expected and the pair word `w`. -/
def midway (k : BitVec 3) (r : PairCount) (w : PairWord) : State :=
  { State.reset with mode := .active, slot := k, remain := r, word := w }

/-- A block in ERROR after START 3 (P3 of 95_test_vectors.md). -/
def inError : State := { State.reset with mode := .error, errCode := .invalidInputLength, errLen := 3 }

/-- A configuration that is not the default one and meets R7: 'c', 'q' and 'x' at the indices 9, 11 and 14. -/
def otherRoms : Roms := ⟨Config.consonants 0x63 0x71 0x78, Config.vowels⟩

/-! ## Well-formedness: the one check, and a term it refuses (30_encoding.md R75) -/

theorem test_wf_refuses_char_hyphen : (Instr.char 0x2D).wf = false := by decide
theorem test_wf_accepts_char_neighbours : (Instr.char 0x2C).wf = true ∧ (Instr.char 0x2E).wf = true := by decide
theorem test_wf_accepts_the_hyphen_row : Instr.hyphen.wf = true := by decide

/-! ## Decoding, every constructor's word written out (30_encoding.md R75, 95_test_vectors.md 2.2) -/

theorem test_decode_start : decodeCmd 0b01_0000000000000100#18 = .start 4 := by decide
theorem test_decode_start_top : decodeCmd 0b01_1111111111111111#18 = .start 65535 := by decide
theorem test_decode_pair : decodeCmd 0b10_01111111_00000000#18 = .pair 127 0 := by decide
theorem test_decode_pair_low_byte : decodeCmd 0b10_00000000_00000001#18 = .pair 0 1 := by decide
theorem test_decode_illegal_op00 : decodeCmd 0b00_1111111111111111#18 = .illegalOp00 0xFFFF := by decide
theorem test_decode_illegal_zero : decodeCmd 0b00_0000000000000000#18 = .illegalOp00 0 := by decide
theorem test_decode_illegal_op11 : decodeCmd 0b11_1010101111001101#18 = .illegalOp11 0xABCD := by decide
theorem test_decode_hyphen : decode (.tok 0b0_00101101#9) = .ok .hyphen := by rfl
theorem test_decode_char : decode (.tok 0b0_01100010#9) = .ok (.char 0x62) := by rfl
theorem test_decode_char_top : decode (.tok 0b0_11111111#9) = .ok (.char 0xFF) := by rfl
theorem test_decode_end : decode (.tok 0b1_00000000#9) = .ok .endTok := by rfl
theorem test_decode_reserved : decode (.tok 0b1_00000001#9) = .error (.reservedToken 0x101) := by rfl
theorem test_decode_reserved_top : decode (.tok 0b1_11111111#9) = .error (.reservedToken 0x1FF) := by rfl

theorem test_table_start : decodeTableWord 24 0x10000 = some (.start 0) := by decide
theorem test_table_pair : decodeTableWord 24 0x20000 = some (.pair 0 0) := by decide
theorem test_table_illegal : decodeTableWord 24 0 = some (.illegalOp00 0) ∧
    decodeTableWord 24 0x30000 = some (.illegalOp11 0) := by decide
theorem test_table_tokens : decodeTableWord 16 0x02D = some .hyphen ∧ decodeTableWord 16 0 = some (.char 0) ∧
    decodeTableWord 16 0x100 = some .endTok := by decide
theorem test_table_refusals : decodeTableWord 16 0x101 = none ∧ decodeTableWord 16 0x200 = none ∧
    decodeTableWord 24 0x40000 = none ∧ decodeTableWord 8 0 = none := by decide

/-! ## The step runs the placed word first after reset (log entry 6) -/

theorem test_placed_start : after (step (State.reset.withFetchWord 24 0x10004)) State.reset =
    { State.reset with mode := .active, first := true, remain := 2 } := by decide
theorem test_placed_end : (after (step (State.reset.withFetchWord 16 0x100)) State.reset).out = [.fin] := by decide
theorem test_placed_hyphen :
    (after (step (State.reset.withFetchWord 16 0x2D)) State.reset).out = [.char 0x2D] := by decide
theorem test_placed_char_not_in_the_tables :
    (after (step (State.reset.withFetchWord 16 0xFF)) State.reset).out = [.char 0xFF] := by decide
theorem test_placed_vowel :
    (after (step (State.reset.withFetchWord 16 0x6F)) State.reset).out = [.char 0x6F] := by decide
theorem test_placed_word_before_the_first_reset :
    (after (step (State.powerOn.withFetchWord 24 0x10004)) State.reset).remain = 2 := by decide

/-! ## Commands (95_test_vectors.md 2.3) -/

/-- VC5: START 65535 in IDLE. -/
theorem test_start_odd : (after (exec (.start 65535) State.reset) State.reset).status = 0xFFFF0016#32 := by decide
/-- VC6: START 3 while ACTIVE: the protocol comes before the length. -/
theorem test_start_active :
    (after (exec (.start 3) (midway 6 2 0)) State.reset).status = 0x0000001A#32 := by decide
/-- VC12: the second PAIR has its hyphen first. -/
theorem test_pair_second : (after (exec (.pair 0xAB 0xCD) (midway 6 1 0x1234)) State.reset) =
    midway 0 0 0xABCD := by decide
/-- VC10: PAIR in IDLE. -/
theorem test_pair_idle : (after (exec (.pair 0x12 0x34) State.reset) State.reset).status = 0x0000001A#32 := by decide
/-- VC14: the all-zero word. -/
theorem test_illegal_op00 : (after (exec (.illegalOp00 0) State.reset) State.reset).status = 0x0000001E#32 := by decide
/-- VC17: OP 11 in ACTIVE aborts, with WORD unchanged (R119). -/
theorem test_illegal_op11_aborts : after (exec (.illegalOp11 0xABCD) (midway 6 2 0x55)) State.reset =
    { State.reset with mode := .error, errCode := .illegalCommand, word := 0x55 } := by decide

/-! ## The output sequencer (95_test_vectors.md 2.4) -/

/-- The rows of 2.4 for the slots 0, 1, 5 and 7, WORD = 0xABCD, REMAIN = 0. -/
theorem test_hyphen : after (exec .hyphen (midway 0 0 0xABCD)) State.reset =
    { midway 1 0 0xABCD with out := [.char 0x2D] } := by decide
theorem test_char_first : after (exec (.char 0x70) (midway 1 0 0xABCD)) State.reset =
    { midway 2 0 0xABCD with out := [.char 0x70] } := by decide
theorem test_char_last : after (exec (.char 0x74) (midway 5 0 0xABCD)) State.reset =
    { midway 7 0 0xABCD with out := [.char 0x74] } := by decide
theorem test_end : after (exec .endTok (midway 7 0 0xABCD)) State.reset =
    { State.reset with word := 0xABCD, out := [.fin] } := by decide

/-! ## The datapath (95_test_vectors.md 2.1), the tables and the pseudo-instruction -/

/-- S21, S20, S27: the word's fields in every position, and the field that straddles the bytes. -/
theorem test_syllables : syllable Config.defaultRoms 0x1234 = [0x64, 0x61, 0x6D, 0x75, 0x68] ∧
    syllable Config.defaultRoms 0xAAAA = [0x70, 0x6F, 0x70, 0x6F, 0x70] ∧
    syllable Config.defaultRoms 0x03C0 = [0x62, 0x61, 0x7A, 0x61, 0x62] := by decide
/-- E4: bahaf-basah-bihak. -/
theorem test_encode_six_bytes : encodeBytes Config.defaultRoms [1, 2, 3, 4, 5, 6] =
    some [0x62, 0x61, 0x68, 0x61, 0x66, 0x2D, 0x62, 0x61, 0x73, 0x61, 0x68, 0x2D,
      0x62, 0x69, 0x68, 0x61, 0x6B] := by decide
/-- R7: the default configuration and another one. -/
theorem test_roms_legal : Config.defaultRoms.legal ∧ otherRoms.legal := by decide
/-- R7: the constraints refuse an entry of the table, a repeated value and the hyphen. -/
theorem test_config_refused :
    ¬ Config.legal 0x62 0x72 0x76 ∧ ¬ Config.legal 0x72 0x72 0x76 ∧ ¬ Config.legal 0x6E 0x2D 0x76 := by decide

/-! ## Reset and the first reset (10_state.md R37, 70_reset_and_hazards.md R135) -/

theorem test_status_after_reset : State.reset.status = 0x00000010#32 := by decide
theorem test_status_read_refused : readStatus State.powerOn = .refused .beforeFirstReset := by rfl
theorem test_reset_cuts_a_conversion :
    (after (step { midway 3 1 0xFFFF with turns := [.reset] }) State.powerOn).status = 0x00000010#32 := by decide

/-! ## Witnesses: for every statement with hypotheses, values that meet them together; for one with several clauses,
each clause at the ends of its range. -/

theorem witness_DecodeOfEncodeGivesTheInstruction :
    (Instr.char 0x2C).wf = true ∧ Instr.hyphen.wf = true ∧ (Instr.start 65535).wf = true ∧
      (Instr.pair 0 255).wf = true ∧ (Instr.illegalOp00 0).wf = true ∧ (Instr.illegalOp11 0xFFFF).wf = true ∧
      Instr.endTok.wf = true := by decide

theorem witness_EncodeOfDecodeGivesTheWord :
    decode (.cmd 0x3FFFF#18) = .ok (.illegalOp11 0xFFFF) ∧ decode (.tok 0x0FF#9) = .ok (.char 0xFF) :=
  ⟨rfl, rfl⟩

theorem witness_CommandWordsDecodeByOp :
    (0x1FFFF#18).extractLsb' 16 2 = 0b01#2 ∧ (0x20000#18).extractLsb' 16 2 = 0b10#2 ∧
      (0x00001#18).extractLsb' 16 2 = 0b00#2 ∧ (0x3FFFF#18).extractLsb' 16 2 = 0b11#2 := by decide

theorem witness_TokenWordsDecodeByKind :
    (0x000#9).getLsbD 8 = false ∧ (0x0FF#9).getLsbD 8 = false ∧ (0x02D#9).getLsbD 8 = false ∧
      0x101 ≤ (0x101#9).toNat ∧ 0x101 ≤ (0x1FF#9).toNat ∧ ¬ 0x101 ≤ (0x100#9).toNat := by decide

theorem witness_EncodePseudoInstructionExpands :
    (([] : List Byte).length < 65536 ∧ ([] : List Byte).length % 2 = 0) ∧
      ((List.replicate 65534 (0 : Byte)).length < 65536 ∧ (List.replicate 65534 (0 : Byte)).length % 2 = 0) ∧
      ((List.replicate 65535 (0 : Byte)).length < 65536 ∧ (List.replicate 65535 (0 : Byte)).length % 2 = 1) ∧
      65536 ≤ (List.replicate 65536 (0 : Byte)).length := by
  simp only [List.length_replicate, List.length_nil]
  decide

theorem witness_HandshakeSignals :
    (midway 0 0 0).pending = true ∧ (midway 1 0 0).pending = true ∧ (midway 5 0 0).pending = true ∧
      (midway 7 0 0).pending = true ∧ (midway 6 1 0).pending = false ∧ State.reset.pending = false := by decide

/-- A step from each kind of state that meets the register invariants. -/
theorem witness_StepKeepsTheRegisterInvariants :
    (offered [0x10004] [.accept]).Inv ∧ { midway 5 0 0xFFFF with turns := [.emit] }.Inv ∧ inError.Inv ∧
      ∃ t, step { midway 5 0 0xFFFF with turns := [.emit] } = .next t ∧ t.slot = 7 :=
  ⟨by decide, by decide, by decide, _, rfl, rfl⟩

/-- Slot 3, after the first two characters of "lusab". -/
theorem witness_StepKeepsTheStreamInvariant :
    let s : State := { midway 3 1 0x7F00 with out := [.char 0x6C, .char 0x75], turns := [.emit] }
    s.Inv ∧ s.StreamInv ∧ ∃ t, step s = .next t ∧ t.slot = 4 := by
  refine ⟨by decide, fun _ => ⟨fun h => absurd h (by decide), fun _ _ => ?_, fun h => absurd h (by decide)⟩,
    _, rfl, rfl⟩
  exact List.suffix_refl _

/-- Slot 0, after a whole syllable. -/
theorem witness_StepKeepsTheStreamInvariant_hyphen :
    let s : State := { midway 0 0 0x0001 with out := syllableTokens Config.defaultRoms 0x7F00, turns := [.emit] }
    s.Inv ∧ s.StreamInv ∧ ∃ t, step s = .next t ∧ t.slot = 1 :=
  ⟨by decide, fun _ => ⟨fun _ => ⟨0x7F00, List.suffix_refl _⟩, fun h => absurd h (by decide),
    fun h => absurd h (by decide)⟩, _, rfl, rfl⟩

theorem witness_WordIsTheLastAcceptedPair :
    let s := offered [0x10002, 0x27F00, 0x00000] [.accept, .accept, .emit]
    s.mode ≠ .active ∧ Turn.withdraw ∉ s.turns ∧
      ∃ t, runsTo 3 s t ∧ t.mode = .active ∧ t.slot ≤ 5 ∧ t.inQ = [0] :=
  ⟨by decide, by decide, _, ⟨_, rfl, _, rfl, _, rfl, rfl⟩, by decide, by decide, rfl⟩

/-- A step that changes STATE, SLOT, FIRST and REMAIN, and one that changes ERR_CODE and ERR_LEN. -/
theorem witness_OnlyTheListedRulesWriteARegister :
    (∃ t, step (offered [0x10004] [.accept]) = .next t ∧ t.mode = .active ∧ t.first = true ∧ t.remain = 2) ∧
      (∃ t, step (offered [0x10003] [.accept]) = .next t ∧ t.errCode = .invalidInputLength ∧ t.errLen = 3) ∧
      (∀ ts, [Turn.accept] ≠ .reset :: ts) :=
  ⟨⟨_, rfl, rfl, rfl, rfl⟩, ⟨_, rfl, rfl, rfl⟩, fun _ h => by cases h⟩

theorem witness_RomsAreNeverWritten :
    (∃ t, step { State.reset with roms := otherRoms, turns := [.reset] } = .next t) ∧
      ∃ t, exec (.start 2) { State.reset with roms := otherRoms } = .next t ∧ t.mode = .active :=
  ⟨⟨_, rfl⟩, _, rfl, rfl⟩

theorem witness_legal_roms : Config.defaultRoms.legal ∧ otherRoms.legal ∧ otherRoms ≠ Config.defaultRoms := by decide

/-- R98's three outcomes: N = 3 in ACTIVE; N = 1 and 65535, N = 0 and 65534 in IDLE; the same in ERROR. -/
theorem witness_StartFollowsItsRule :
    ((midway 6 1 0).wasReset = true ∧ (midway 6 1 0).inReady = true ∧ (midway 6 1 0).mode = .active) ∧
      (State.reset.wasReset = true ∧ State.reset.inReady = true ∧ State.reset.mode ≠ .active) ∧
      (inError.wasReset = true ∧ inError.inReady = true ∧ inError.mode ≠ .active) ∧
      ((1 : Length).toNat % 2 = 1 ∧ (65535 : Length).toNat % 2 = 1) ∧
      ((0 : Length).toNat % 2 = 0 ∧ (65534 : Length).toNat % 2 = 0) := by decide

/-- The last pair expected, the most that can be, and a PAIR outside ACTIVE. -/
theorem witness_PairFollowsItsRule :
    ((midway 6 1 0).wasReset = true ∧ (midway 6 1 0).inReady = true ∧ (midway 6 1 0).mode = .active ∧
        1 ≤ (midway 6 1 0).remain.toNat) ∧
      ((midway 6 32767 0).inReady = true ∧ 1 ≤ (midway 6 32767 0).remain.toNat) ∧
      (inError.wasReset = true ∧ inError.inReady = true ∧ inError.mode ≠ .active) ∧
      (State.reset.inReady = true ∧ State.reset.mode ≠ .active) := by decide

theorem witness_IllegalWordsAlwaysRaise :
    (State.reset.wasReset = true ∧ State.reset.inReady = true) ∧
      ((midway 6 2 0).wasReset = true ∧ (midway 6 2 0).inReady = true) ∧
      (inError.wasReset = true ∧ inError.inReady = true) := by decide

theorem witness_CommandsAreHeldWhileATokenIsPending :
    let s : State := { midway 0 1 0 with inQ := [0x10002], turns := [.accept] }
    s.wasReset = true ∧ s.inReady = false ∧ s.turns = .accept :: [] := by decide

theorem witness_StatusReadGivesTheStatusWord :
    State.reset.wasReset = true ∧ (midway 7 0 0).wasReset = true ∧ State.powerOn.wasReset = false := by decide

theorem witness_HyphenFollowsItsRule :
    (midway 0 0 0xABCD).wasReset = true ∧ (midway 0 0 0xABCD).mode = .active ∧ (midway 0 0 0xABCD).slot = 0 := by
  decide

/-- Slots 1 and 5 of "pozat", with and without a pair left, in both configurations. -/
theorem witness_CharFollowsItsRule :
    let chars := fun s : State => [cons s.roms (s.word.extractLsb' 12 4), vow s.roms (s.word.extractLsb' 10 2),
      cons s.roms (s.word.extractLsb' 6 4), vow s.roms (s.word.extractLsb' 4 2), cons s.roms (s.word.extractLsb' 0 4)]
    (chars (midway 1 0 0xABCD))[(midway 1 0 0xABCD).slot.toNat - 1]? = some 0x70 ∧
      (chars (midway 5 0 0xABCD))[(midway 5 0 0xABCD).slot.toNat - 1]? = some 0x74 ∧
      (chars { midway 5 1 0x0009 with roms := otherRoms })[5 - 1]? = some 0x63 ∧
      (midway 5 0 0xABCD).wasReset = true ∧ (midway 5 0 0xABCD).mode = .active ∧ 1 ≤ (midway 1 0 0xABCD).slot ∧
      (midway 5 0 0xABCD).slot ≤ 5 := by decide

theorem witness_EndFollowsItsRule :
    (midway 7 0 0xABCD).wasReset = true ∧ (midway 7 0 0xABCD).mode = .active ∧ (midway 7 0 0xABCD).slot = 7 := by
  decide

theorem witness_TokensNotPendingAreNotHandedOut :
    (State.reset.wasReset = true ∧ State.reset.outValid = false) ∧
      ((midway 7 0 0).outValid = true ∧ (midway 7 0 0).slot ≠ 0) ∧
      ((midway 0 0 0).outValid = true ∧ (midway 0 0 0).slot ≠ 7) ∧
      charmux Config.defaultRoms 0 1 ≠ some 0x63 := by decide

theorem witness_TokensLeaveOnlyInActive :
    ∃ t, step { midway 7 0 0 with turns := [.emit] } = .next t ∧ t.out ≠ (midway 7 0 0).out :=
  ⟨_, rfl, by decide⟩

theorem witness_OnlyAlphabetHyphenAndEndAreEmitted :
    ∃ t, step { midway 2 0 0 with turns := [.emit] } = .next t ∧ t.out = [.char 0x61] :=
  ⟨_, rfl, by decide⟩

theorem witness_TokensOfOneCommand_start :
    let s := offered [0b01#2 ++ 0#16, 5] [.accept, .emit, .reset]
    s.wasReset = true ∧ s.mode ≠ .active ∧ (0#16).toNat % 2 = 0 ∧ (2#16).toNat % 2 = 0 ∧
      s.inQ = (0b01#2 ++ 0#16) :: [5] ∧ s.turns = .accept :: .emit :: [.reset] := by decide

theorem witness_TokensOfOneCommand_pair :
    let s : State := { midway 6 1 0 with
      first := true, inQ := [0b10#2 ++ (127#8 ++ 0#8)], turns := .accept :: (List.replicate 7 Turn.emit ++ [Turn.reset]) }
    s.wasReset = true ∧ s.mode = .active ∧ s.slot = 6 ∧ s.remain ≠ 0 ∧
      s.inQ = (0b10#2 ++ (127#8 ++ 0#8)) :: [] ∧ s.turns = .accept :: (List.replicate 7 Turn.emit ++ [Turn.reset]) := by decide

/-- The empty conversion, another word after it, up to its END. -/
theorem witness_ConversionEmitsTheProquint_empty :
    let s := offered [0x10000, 0x10002] [.accept, .emit]
    s.wasReset = true ∧ s.mode ≠ .active ∧ encodeBytes s.roms [] = some [] ∧
      (∃ cmds, expandEncode [] = some cmds ∧ s.inQ = commandWords cmds ++ [0x10002]) ∧ s.OnlyTransfers ∧
      ∃ t, runsTo 2 s t ∧ t.inQ = [0x10002] ∧ t.pending = false :=
  ⟨rfl, by decide, rfl, ⟨_, rfl, rfl⟩, by decide, _, ⟨_, rfl, _, rfl, rfl⟩, rfl, rfl⟩

/-- Vector 1 of 1.1, from ERROR, with the host ahead of the consumer: three steps on, its first character has left. -/
theorem witness_ConversionEmitsTheProquint :
    let s : State := { inError with inQ := [0x10004, 0x27F00, 0x20001], turns := [.accept, .accept, .emit] }
    s.wasReset = true ∧ s.mode ≠ .active ∧
      encodeBytes s.roms [127, 0, 0, 1] =
        some [0x6C, 0x75, 0x73, 0x61, 0x62, 0x2D, 0x62, 0x61, 0x62, 0x61, 0x64] ∧
      (∃ cmds, expandEncode [127, 0, 0, 1] = some cmds ∧ s.inQ = commandWords cmds ++ []) ∧ s.OnlyTransfers ∧
      ∃ t, runsTo 3 s t ∧ [] <:+ t.inQ ∧ t.inQ = [0x20001] ∧ t.out = [.char 0x6C] :=
  ⟨rfl, by decide, by decide, ⟨_, rfl, rfl⟩, by decide, _, ⟨_, rfl, _, rfl, _, rfl, rfl⟩, by decide, rfl, rfl⟩

theorem witness_ConversionCompletes :
    let s := offered [0x10002, 0x27F00] ((List.replicate 8 [Turn.accept, Turn.emit]).flatten ++ [.reset])
    s.wasReset = true ∧ s.mode ≠ .active ∧ encodeBytes s.roms [127, 0] = some [0x6C, 0x75, 0x73, 0x61, 0x62] ∧
      (∃ cmds, expandEncode [127, 0] = some cmds ∧ s.inQ = commandWords cmds ∧
        8 = cmds.length + (tokensOf [0x6C, 0x75, 0x73, 0x61, 0x62]).length) ∧
      s.turns = (List.replicate 8 [Turn.accept, Turn.emit]).flatten ++ [.reset] :=
  ⟨rfl, by decide, by decide, ⟨_, rfl, rfl, rfl⟩, rfl⟩

theorem witness_ConversionTokenCounts :
    otherRoms.legal ∧ encodeBytes otherRoms [] = some [] ∧
      encodeBytes otherRoms [0, 9] = some [0x62, 0x61, 0x62, 0x61, 0x63] := by decide

theorem witness_OneStreamPerCommandSequence :
    let s := offered [0x10000] []
    ({ s with turns := [.emit, .accept] }).OnlyTransfers ∧ ({ s with turns := [.accept, .emit] }).OnlyTransfers ∧
      (∃ t, runsTo 2 { s with turns := [.emit, .accept] } t ∧ t.out = []) ∧
      ∃ u, runsTo 2 { s with turns := [.accept, .emit] } u ∧ u.out = [.fin] :=
  ⟨by decide, by decide, ⟨_, ⟨_, rfl, _, rfl, rfl⟩, rfl⟩, _, ⟨_, rfl, _, rfl, rfl⟩, rfl⟩

theorem witness_SyllablesAreInjective :
    otherRoms.legal ∧ syllable otherRoms 0xFEDC = syllable otherRoms 0xFEDC := ⟨by decide, rfl⟩

theorem witness_EncodingIsInjective :
    otherRoms.legal ∧ encodeBytes otherRoms [0, 9, 255, 255] =
      some [0x62, 0x61, 0x62, 0x61, 0x63, 0x2D, 0x7A, 0x75, 0x7A, 0x75, 0x7A] := by decide

theorem witness_LengthLaw :
    ([] : List Byte).length % 2 = 0 ∧ ([1, 2] : List Byte).length % 2 = 0 ∧ 0 < ([1, 2] : List Byte).length ∧
      ([1] : List Byte).length % 2 = 1 := by decide

/-- For the position law and the pattern: the positions 0 to 5 of "lusab-babad", and its last one. -/
theorem witness_PositionLaw :
    let str : List Byte := [0x6C, 0x75, 0x73, 0x61, 0x62, 0x2D, 0x62, 0x61, 0x62, 0x61, 0x64]
    encodeBytes Config.defaultRoms [127, 0, 0, 1] = some str ∧ 0 % 6 < 5 ∧ 4 % 6 < 5 ∧ 5 % 6 = 5 ∧
      10 < str.length ∧ 10 % 6 = 4 ∧ 1 % 6 = 1 ∧ 3 % 6 = 3 := by decide

theorem witness_SyllablePattern :
    encodeBytes otherRoms [0, 9] = some [0x62, 0x61, 0x62, 0x61, 0x63] ∧
      4 < ([0x62, 0x61, 0x62, 0x61, 0x63] : List Byte).length := by decide

theorem witness_SpliceLaw :
    ([127, 0] : List Byte) ≠ [] ∧ ([0, 1] : List Byte) ≠ [] ∧
      encodeBytes Config.defaultRoms [127, 0] = some [0x6C, 0x75, 0x73, 0x61, 0x62] ∧
      encodeBytes Config.defaultRoms [0, 1] = some [0x62, 0x61, 0x62, 0x61, 0x64] := by decide

theorem witness_HyphenIsNoTableEntry :
    (midway 0 0 0).roms.legal ∧ (midway 0 0 0).outToken = some (.char 0x2D) := by decide

/-- The four causes of R118. -/
theorem witness_ErrorsComeOnlyFromAcceptedCommands :
    (∃ t, step (offered [0x10003] [.accept]) = .next t ∧ t.mode = .error ∧ t.errLen = 3) ∧
      (∃ t, step (offered [0x21234] [.accept]) = .next t ∧ t.mode = .error ∧ t.errCode = .protocolError) ∧
      (∃ t, step { midway 6 2 0 with inQ := [0x10003], turns := [.accept] } = .next t ∧ t.mode = .error ∧
        t.errCode = .protocolError) ∧
      ∃ t, step { inError with inQ := [0], turns := [.accept] } = .next t ∧ t.mode = .error ∧
        t.errCode ≠ inError.errCode :=
  ⟨⟨_, rfl, rfl, rfl⟩, ⟨_, rfl, rfl, rfl⟩, ⟨_, rfl, rfl, rfl⟩, _, rfl, rfl, by decide⟩

/-- From ERROR: an even START, a PAIR, both illegal words and an odd START, executed. -/
theorem witness_ErrorIsLeftOnlyByEvenStartOrReset :
    let s := fun x : CmdWord => { inError with inQ := [x], turns := [.accept] }
    (∃ t, step (s 0x10002) = .next t ∧ t.mode ≠ .error) ∧ (s 0x10002).executes = some (.start 2) ∧
      (s 0x20102).executes = some (.pair 1 2) ∧ (s 0).executes = some (.illegalOp00 0) ∧
      (s 0x30000).executes = some (.illegalOp11 0) ∧ (s 0x10005).executes = some (.start 5) :=
  ⟨⟨_, rfl, by decide⟩, by decide⟩

theorem witness_ErrorsShowInStatus :
    (inError.Inv ∧ inError.mode = .error ∧ inError.errCode = .invalidInputLength) ∧
      { inError with errCode := .protocolError, errLen := 0 }.Inv ∧
      { inError with errCode := .illegalCommand, errLen := 0 }.Inv :=
  ⟨⟨by decide, by decide⟩, by decide, by decide⟩

theorem witness_EveryStepCompletesAfterReset :
    State.reset.wasReset = true ∧
      step { State.powerOn with turns := [.emit] } = .refused .beforeFirstReset := ⟨rfl, rfl⟩

theorem witness_ResetStepFromAnyState :
    { State.powerOn with turns := [.reset] }.turns = .reset :: [] ∧
      { midway 3 1 0 with turns := [.reset, .accept] }.turns = .reset :: [.accept] := by decide

theorem witness_NothingRunsBeforeTheFirstReset :
    State.powerOn.wasReset = false ∧ { State.powerOn with turns := [.emit] }.turns = .emit :: [] ∧
      { State.powerOn with inQ := [0x10000], turns := [.accept] }.inQ = 0x10000 :: [] ∧
      { State.powerOn with turns := [.reset] }.turns = .reset :: [] := by decide

theorem witness_StatusDuringAConversion :
    ((midway 0 0 0).Inv ∧ (midway 0 0 0).mode = .active ∧ (midway 0 0 0).slot ≠ 6) ∧
      ((midway 6 1 0).Inv ∧ (midway 6 1 0).slot = 6) ∧ (State.reset.Inv ∧ State.reset.mode = .idle) :=
  ⟨⟨by decide, by decide⟩, ⟨by decide, by decide⟩, by decide, by decide⟩

/-- A held START during the last syllable and during an earlier one, of an even and of an odd length. -/
theorem witness_HeldStartIsJudgedWhenAccepted :
    let s : PairCount → Length → State := fun r n =>
      { midway 1 r 0 with inQ := [0b01#2 ++ n], turns := List.replicate 7 Turn.emit ++ Turn.accept :: [] }
    ((s 0 2).wasReset = true ∧ (s 0 2).Inv ∧ (s 0 2).pending = true ∧ (s 0 2).inQ = (0b01#2 ++ 2#16) :: [] ∧
        (s 0 2).turns = List.replicate 7 Turn.emit ++ Turn.accept :: [] ∧ (s 0 2).remain = 0) ∧
      ((s 0 3).Inv ∧ (3#16).toNat % 2 = 1) ∧ ((s 1 2).Inv ∧ (s 1 2).remain ≠ 0) :=
  ⟨⟨rfl, by decide, by decide⟩, ⟨by decide, by decide⟩, by decide, by decide⟩

theorem witness_BackpressureLosesNothing :
    let s : State := { midway 7 0 0 with inQ := [0x10002], turns := List.replicate 3 Turn.accept ++ [Turn.emit] }
    s.wasReset = true ∧ s.pending = true ∧ s.turns = List.replicate 3 Turn.accept ++ [Turn.emit] := by decide

theorem witness_MissingPairsHangTheBlock :
    let s : State := { midway 6 1 0 with turns := [.accept, .emit] }
    s.wasReset = true ∧ s.mode = .active ∧ s.slot = 6 ∧ s.inQ = [] ∧ s.OnlyTransfers := by decide

theorem witness_SevenTakingsDrainTheBlock :
    let s : State := { midway 0 0 0 with turns := List.replicate 7 Turn.emit ++ [Turn.accept] }
    s.wasReset = true ∧ s.pending = true ∧ s.turns = List.replicate 7 Turn.emit ++ [Turn.accept] := by decide

theorem witness_WordsAreTakenInOrderWithNothingPending :
    (∃ t, step (offered [0x10002, 0x20000] [.accept]) = .next t ∧ t.inQ = [0x20000]) ∧
      ∃ t, step (offered [0x10002, 0x20000] [.withdraw]) = .next t ∧ t.inQ = [0x20000] :=
  ⟨⟨_, rfl, rfl⟩, _, rfl, rfl⟩

/-- Two states that differ in WORD, in IDLE and while a PAIR is awaited. -/
theorem witness_IdleWordIsUnobservable :
    (offered [0x10002] [.accept]).AgreeButIdleWord { offered [0x10002] [.accept] with word := 0xFFFF } ∧
      (midway 6 1 0).AgreeButIdleWord { midway 6 1 0xFFFF with freeIdx := 5 } ∧
      ∃ t, step (offered [0x10002] [.accept]) = .next t :=
  ⟨⟨rfl, fun h => absurd h (by decide)⟩, ⟨rfl, fun _ h => absurd h (by decide)⟩, _, rfl⟩

theorem witness_StepRunsTheOfferedCommand :
    let s := offered [0x27F00, 0] [.accept, .emit]
    s.wasReset = true ∧ s.inReady = true ∧ s.turns = .accept :: [.emit] ∧ s.inQ = 0x27F00 :: [0] ∧
      decode (.cmd 0x27F00#18) = .ok (.pair 127 0) :=
  ⟨rfl, rfl, rfl, rfl, rfl⟩

/-- The pending hyphen, character and END, each with its word's decoding. -/
theorem witness_StepRunsThePendingToken :
    let s := fun k => { midway k 0 0x7F00 with turns := [.emit] }
    (s 1).wasReset = true ∧ (s 1).roms.legal ∧ (s 1).turns = .emit :: [] ∧
      (s 1).outToken = some (.char 0x6C) ∧ (s 0).outToken = some (.char 0x2D) ∧ (s 7).outToken = some .fin ∧
      decodeTok (Token.char 0x6C).word = .ok (.char 0x6C) ∧ decodeTok (Token.char 0x2D).word = .ok .hyphen ∧
      decodeTok Token.fin.word = .ok .endTok :=
  ⟨rfl, by decide, rfl, by decide, by decide, by decide, rfl, rfl, rfl⟩

theorem witness_PlacedWordIsExecutedNext :
    decodeTableWord 24 0x10004 = some (.start 4) ∧ decodeTableWord 16 0xFF = some (.char 0xFF) := by decide

end Sys2Proof.Tests
end

namespace Sys2Proof.Machine

variable {s t : State} {i : Instr}

/-! ## What one step can do, as relations -/

/-- The causes of an error (R118): the command, and the error it raises with its length. -/
inductive ErrorCause (s : State) : Instr → Err → Length → Prop where
  | startInActive (n : Length) (hm : s.mode = .active) : ErrorCause s (.start n) .protocolError 0
  | startOdd (n : Length) (hm : s.mode ≠ .active) (hn : n.toNat % 2 = 1) :
      ErrorCause s (.start n) .invalidInputLength n
  | pairOutsideActive (b0 b1 : Byte) (hm : s.mode ≠ .active) : ErrorCause s (.pair b0 b1) .protocolError 0
  | illegalOp00 (d : BitVec 16) : ErrorCause s (.illegalOp00 d) .illegalCommand 0
  | illegalOp11 (d : BitVec 16) : ErrorCause s (.illegalOp11 d) .illegalCommand 0

/-- What an accepted command does: it raises an error, begins a conversion (R98) or loads a pair (R99). -/
inductive CommandStep (s : State) : Instr → State → Prop where
  | raised {i : Instr} {e : Err} {info : Length} (hc : ErrorCause s i e info) : CommandStep s i (raise e info s)
  | began (n : Length) (hm : s.mode ≠ .active) (hn : n.toNat % 2 = 0) : CommandStep s (.start n) (beginConversion n s)
  | loaded (b0 b1 : Byte) (hm : s.mode = .active) : CommandStep s (.pair b0 b1) (loadPair (pairWord b0 b1) s)

/-- What handing out the pending token does (R108 to R110), with the instruction that does it. -/
inductive TokenStep (s : State) : Instr → State → Prop where
  | hyphen (hk : s.slot = 0) : TokenStep s .hyphen (hyphenEffect s)
  | char (c : Byte) (h1 : 1 ≤ s.slot) (h5 : s.slot ≤ 5) (hc : charmux s.roms s.word s.slot = some c) :
      TokenStep s (.char c) (charEffect c s)
  | fin (hk : s.slot = 7) : TokenStep s .endTok (endEffect s)

/-- Everything a step that completes can be: no move of the block, a command, a token or a RESET. -/
inductive StepKind (s : State) : State → Prop where
  | idle (ts : List Turn) (q : List CmdWord) (hts : ts = s.turns.tail) (hq : .withdraw ∉ s.turns → q = s.inQ) :
      StepKind s { s with turns := ts, inQ := q }
  | command {t : State} {x : CmdWord} {rest : List CmdWord} (hq : s.inQ = x :: rest) (hp : s.pending = false)
      (he : s.executes = some (decodeCmd x))
      (hc : CommandStep { s with turns := s.turns.tail, inQ := rest } (decodeCmd x) t) : StepKind s t
  | token {t : State} {i : Instr} (hp : s.pending = true) (he : s.executes = some i)
      (ht : TokenStep { s with turns := s.turns.tail } i t) : StepKind s t
  | reset (ts : List Turn) (ht : s.turns = .reset :: ts) : StepKind s (resetBlock { s with turns := s.turns.tail })

theorem startEffect_commandStep (n : Length) (s : State) : CommandStep s (.start n) (startEffect n s) := by
  unfold startEffect oddLength
  split
  · exact .raised (.startInActive n ‹_›)
  · split
    · exact .raised (.startOdd n ‹_› (by simp_all))
    · exact .began n ‹_› (by simp_all)

theorem pairEffect_commandStep (b0 b1 : Byte) (s : State) :
    CommandStep s (.pair b0 b1) (pairEffect (pairWord b0 b1) s) := by
  unfold pairEffect
  split
  · exact .loaded b0 b1 ‹_›
  · exact .raised (.pairOutsideActive b0 b1 ‹_›)

/-- A decoded IN word is always a command. -/
theorem commandEffect_commandStep (x : CmdWord) (s : State) :
    CommandStep s (decodeCmd x) (commandEffect (decodeCmd x) s) := by
  unfold decodeCmd
  split
  · exact startEffect_commandStep _ s
  split
  · exact pairEffect_commandStep _ _ s
  split
  · exact .raised (.illegalOp00 _)
  · exact .raised (.illegalOp11 _)

/-- A token is handed out under its own instruction. -/
theorem pendingInstr_tokenStep (hi : pendingInstr s = some i) (he : EmitEffect s t) : TokenStep s i t := by
  unfold pendingInstr at hi
  split at hi
  · rcases he with ⟨hk, rfl⟩ | ⟨h1, h5, c, hc, rfl⟩ | ⟨hk, rfl⟩
    · simp only [hk, if_true, Option.some.injEq] at hi
      exact hi ▸ .hyphen hk
    · have h0 : s.slot ≠ 0 := fun h => absurd (h ▸ h1) (by decide)
      have h7 : s.slot ≠ 7 := fun h => absurd (h ▸ h5) (by decide)
      simp only [h0, h7, hc, if_false, Option.map_some, Option.some.injEq] at hi
      exact hi ▸ .char c h1 h5 hc
    · simp [hk] at hi
      exact hi ▸ .fin hk
  · cases hi

theorem executes_accept {ts : List Turn} {x : CmdWord} {rest : List CmdWord} (ht : s.turns = .accept :: ts)
    (hq : s.inQ = x :: rest) (hr : s.wasReset = true) (hp : s.pending = false) :
    s.executes = some (decodeCmd x) := by
  simp [State.executes, ht, hq, hr, inReady_eq_true.mpr hp]

theorem executes_emit {ts : List Turn} (ht : s.turns = .emit :: ts) (hr : s.wasReset = true) :
    s.executes = pendingInstr s := by
  simp [State.executes, ht, hr]

/-- The inversion of the step, with the instruction it executed. -/
theorem step_kind (h : step s = .next t) : StepKind s t := by
  rcases step_cases h with ⟨ht, rfl⟩ | ⟨u, ts, ht, hu⟩
  · exact .idle t.turns t.inQ (by simp [ht]) (fun _ => rfl)
  obtain rfl : s.turns.tail = ts := by simp [ht]
  rcases hu with ⟨-, -, rfl⟩ | ⟨rfl, x, rest, hq, hr, hp, rfl⟩ | ⟨-, -, -, rfl⟩ | ⟨rfl, hr, hp, he⟩ | ⟨rfl, rfl⟩ |
    ⟨rfl, rfl⟩
  · exact .idle _ s.inQ rfl (fun _ => rfl)
  · exact .command hq hp (executes_accept ht hq hr hp) (commandEffect_commandStep x _)
  · exact .idle _ s.inQ rfl (fun _ => rfl)
  · obtain ⟨i, _, hi, -⟩ := exec_pending hr hp
    exact .token hp ((executes_emit ht hr).trans hi) (pendingInstr_tokenStep hi he)
  · exact .reset _ ht
  · exact .idle _ _ rfl (fun hn => absurd (ht ▸ List.mem_cons_self) hn)

/-- A predicate of the block alone is kept by every step if its commands, its tokens and RESET keep it. -/
theorem step_keeps {P : State → Prop} (hport : ∀ s ts q, P s → P { s with turns := ts, inQ := q })
    (hcommand : ∀ s i t, CommandStep s i t → s.pending = false → P s → P t)
    (htoken : ∀ s i t, TokenStep s i t → s.pending = true → P s → P t)
    (hreset : ∀ s, P s → P (resetBlock s)) (hs : P s) (h : step s = .next t) : P t := by
  cases step_kind h with
  | idle ts q => exact hport s ts q hs
  | command hq hp he hc => exact hcommand _ _ t hc hp (hport s _ _ hs)
  | token hp he ht => exact htoken _ _ t ht hp (hport s _ s.inQ hs)
  | reset ts ht => exact hreset _ (hport s _ s.inQ hs)

/-- What every step keeps, every run keeps. -/
theorem runsTo_keeps {P : State → Prop} (hstep : ∀ s t, P s → step s = .next t → P t) {k : Nat}
    (h : runsTo k s t) (hs : P s) : P t := by
  induction k generalizing s with
  | zero => exact runsTo_zero.mp h ▸ hs
  | succ k ih =>
    obtain ⟨u, hu, hr⟩ := runsTo_succ.mp h
    exact ih hr (hstep s u hs hu)

end Sys2Proof.Machine

namespace Sys2Proof.Machine

variable {s t : State} {i : Instr}

/-! ## The register invariants (R36) -/

/-- An error entry meets R36 if ERR_LEN is an odd length under code 1 and 0 otherwise (R28). -/
theorem inv_raise {e : Err} {info : Length} (hlen : info ≠ 0 → e = .invalidInputLength)
    (hodd : e = .invalidInputLength → info.toNat % 2 = 1) : (raise e info s).Inv := by
  refine ⟨fun _ => ⟨rfl, rfl, rfl⟩, ?_, ⟨fun h => hlen h ▸ rfl, ?_⟩, nofun, nofun, fun _ => rfl⟩
  · cases e <;> simp [State.ErrorIffCoded, Err.code]
  · cases e with
    | invalidInputLength => exact fun _ => hodd rfl
    | _ => nofun

theorem inv_raise_of_errorCause {e : Err} {info : Length} (h : ErrorCause s i e info) : (raise e info s).Inv := by
  cases h with
  | startOdd n hm hn => exact inv_raise (fun _ => rfl) (fun _ => hn)
  | _ => exact inv_raise (fun h => absurd rfl h) nofun

theorem inv_resetBlock (s : State) : (resetBlock s).Inv :=
  ⟨fun _ => ⟨rfl, rfl, rfl⟩, ⟨nofun, fun _ => rfl⟩, ⟨fun h => absurd rfl h, nofun⟩, nofun, nofun, fun _ => rfl⟩

theorem pairCount_toNat (n : Length) : (pairCount n).toNat = n.toNat / 2 := by
  have := n.isLt
  rw [pairCount, BitVec.extractLsb'_toNat, Nat.shiftRight_one, Nat.mod_eq_of_lt (by omega)]

/-- An even length other than 0 has at least one pair (R98). -/
theorem pairCount_ne_zero {n : Length} (hn : n.toNat % 2 = 0) (h0 : n ≠ 0) : pairCount n ≠ 0 := by
  intro h
  have h2 : n.toNat / 2 = 0 := by rw [← pairCount_toNat, h]; rfl
  exact h0 (BitVec.eq_of_toNat_eq (show n.toNat = 0 by omega))

theorem inv_beginConversion {n : Length} (hn : n.toNat % 2 = 0) (s : State) : (beginConversion n s).Inv := by
  by_cases h0 : n = 0
  · subst h0
    exact ⟨fun h => absurd rfl h, ⟨nofun, fun _ => rfl⟩, ⟨fun h => absurd rfl h, nofun⟩, nofun,
      fun _ => ⟨rfl, rfl⟩, nofun⟩
  · have h6 : (beginConversion n s).slot = 6 := if_neg h0
    exact ⟨fun h => absurd rfl h, ⟨nofun, fun _ => rfl⟩, ⟨fun h => absurd rfl h, nofun⟩,
      fun _ _ => pairCount_ne_zero hn h0, fun h7 => absurd (h6.symm.trans h7) (by decide),
      fun h5 => absurd (h6 ▸ h5) (by decide)⟩

/-- In the slots 0 to 5 of a conversion, R36 says only that FIRST is 0, beside what it says of the error registers. -/
theorem inv_of_slot_le_five (hm : s.mode = .active) (h5 : s.slot ≤ 5) (hfirst : s.first = false)
    (hcode : s.ErrorIffCoded) (hlen : s.ErrLenOk) : s.Inv :=
  ⟨fun h => absurd hm h, hcode, hlen, fun _ h => absurd (h ▸ h5) (by decide), fun h => absurd (h ▸ h5) (by decide),
    fun _ => hfirst⟩

theorem loadPair_slot_le_one (w : PairWord) (s : State) : (loadPair w s).slot ≤ 1 := by
  rw [loadPair_slot]
  split <;> decide

theorem inv_loadPair {w : PairWord} (hm : s.mode = .active) (hs : s.Inv) : (loadPair w s).Inv := by
  obtain ⟨-, hcode, hlen, -, -, -⟩ := hs
  exact inv_of_slot_le_five hm (BitVec.le_trans (loadPair_slot_le_one w s) (by decide)) rfl hcode hlen

theorem inv_hyphenEffect (hm : s.mode = .active) (hk : s.slot = 0) (hs : s.Inv) : (hyphenEffect s).Inv := by
  obtain ⟨-, hcode, hlen, -, -, hfirst⟩ := hs
  exact inv_of_slot_le_five hm (by rw [hyphenEffect_slot]; decide) (hfirst (by simp [hk])) hcode hlen

/-- After a character of slots 1 to 4 the next one is due; after slot 5, END or a PAIR (R109). -/
theorem slotAfterChar_cases (h5 : s.slot ≤ 5) :
    (slotAfterChar s ≤ 5 ∧ (slotAfterChar s).toNat = s.slot.toNat + 1) ∨
    (s.slot = 5 ∧ s.remain = 0 ∧ slotAfterChar s = 7) ∨ (s.slot = 5 ∧ s.remain ≠ 0 ∧ slotAfterChar s = 6) := by
  unfold slotAfterChar
  split
  · left; constructor <;> bv_omega
  have hk : s.slot = 5 := by bv_omega
  split
  · exact .inr (.inl ⟨hk, ‹_›, rfl⟩)
  · exact .inr (.inr ⟨hk, ‹_›, rfl⟩)

theorem inv_charEffect {c : Byte} (hm : s.mode = .active) (h5 : s.slot ≤ 5) (hs : s.Inv) :
    (charEffect c s).Inv := by
  obtain ⟨-, hcode, hlen, -, -, hfirst⟩ := hs
  have hsame : (charEffect c s).first = false := hfirst h5
  rcases slotAfterChar_cases h5 with ⟨hle, -⟩ | ⟨-, hr, hk⟩ | ⟨-, hr, hk⟩
  · exact inv_of_slot_le_five hm hle hsame hcode hlen
  · exact ⟨fun h => absurd hm h, hcode, hlen, fun _ h6 => absurd (hk.symm.trans h6) (by decide), fun _ => ⟨hr, hm⟩,
      fun _ => hsame⟩
  · exact ⟨fun h => absurd hm h, hcode, hlen, fun _ _ => hr, fun h7 => absurd (hk.symm.trans h7) (by decide),
      fun _ => hsame⟩

theorem inv_endEffect (hm : s.mode = .active) (hk : s.slot = 7) (hs : s.Inv) : (endEffect s).Inv := by
  obtain ⟨-, hcode, hlen, -, hend, -⟩ := hs
  exact ⟨fun _ => ⟨rfl, rfl, (hend hk).1⟩, ⟨nofun, fun _ => hcode.mpr (hm ▸ nofun)⟩, hlen, nofun, nofun, fun _ => rfl⟩

theorem inv_commandStep (h : CommandStep s i t) (hs : s.Inv) : t.Inv := by
  cases h with
  | raised hc => exact inv_raise_of_errorCause hc
  | began n hm hn => exact inv_beginConversion hn s
  | loaded b0 b1 hm => exact inv_loadPair hm hs

theorem inv_tokenStep (h : TokenStep s i t) (hp : s.pending = true) (hs : s.Inv) : t.Inv := by
  have hm := (pending_eq_true.mp hp).1
  cases h with
  | hyphen hk => exact inv_hyphenEffect hm hk hs
  | char c h1 h5 hc => exact inv_charEffect hm h5 hs
  | fin hk => exact inv_endEffect hm hk hs

/-- Settles O10: each command, each token and RESET keeps the register invariants. -/
theorem stepKeepsTheRegisterInvariants : Obligations.StepKeepsTheRegisterInvariants := by
  unfold Obligations.StepKeepsTheRegisterInvariants
  intro s t hs h
  exact step_keeps (fun _ _ _ hs => hs) (fun _ _ _ hc _ hs => inv_commandStep hc hs)
    (fun _ _ _ ht hp hs => inv_tokenStep ht hp hs) (fun s _ => inv_resetBlock s) hs h

end Sys2Proof.Machine

namespace Sys2Proof.Machine

variable {s t : State} {i : Instr}

/-! ## The OUT stream (R36 (7)) -/

/-- A list's first `k` items have just left; with the next item they are its first `k + 1`. -/
theorem take_succ_suffix_append {α : Type} {l out : List α} {a : α} {k : Nat} (h : l.take k <:+ out)
    (ha : l[k]? = some a) : l.take (k + 1) <:+ out ++ [a] := by
  rw [List.take_add_one, ha]
  exact (List.suffix_append_inj_of_length_eq rfl).mpr ⟨h, rfl⟩

theorem streamInv_of_not_active (hm : t.mode ≠ .active) : t.StreamInv := fun h => absurd h hm

/-- With the first character due, nothing is asked of the stream. -/
theorem streamInv_of_slot_one (hk : t.slot = 1) : t.StreamInv := by
  refine fun _ => ⟨fun h => absurd (hk.symm.trans h) (by decide), fun _ _ => ?_, fun h => absurd (hk ▸ h) (by decide)⟩
  rw [hk]
  exact List.nil_suffix

theorem streamInv_beginConversion (n : Length) (s : State) : (beginConversion n s).StreamInv := by
  have h6 : 6 ≤ (beginConversion n s).slot := by
    rw [beginConversion_slot]
    split <;> decide
  exact fun _ => ⟨fun h => absurd (h ▸ h6) (by decide), fun _ h5 => absurd (BitVec.le_trans h6 h5) (by decide),
    fun _ h => nomatch h⟩

/-- A later PAIR comes when the whole syllable of the earlier one has left (R99). -/
theorem streamInv_loadPair {w : PairWord} (hm : s.mode = .active) (h6 : s.slot = 6) (hs : s.StreamInv) :
    (loadPair w s).StreamInv := by
  obtain ⟨-, -, hwhole⟩ := hs hm
  cases hf : s.first with
  | true => exact streamInv_of_slot_one (by rw [loadPair_slot, hf]; rfl)
  | false =>
    have hk : (loadPair w s).slot = 0 := by rw [loadPair_slot, hf]; rfl
    exact fun _ => ⟨fun _ => ⟨s.word, hwhole (by rw [h6]; decide) hf⟩, fun h1 => absurd (hk ▸ h1) (by decide),
      fun h => absurd (hk ▸ h) (by decide)⟩

/-- Character k of the syllable leaves after its first k-1 characters (R109). -/
theorem streamInv_charEffect {c : Byte} (hm : s.mode = .active) (h1 : 1 ≤ s.slot) (h5 : s.slot ≤ 5)
    (hc : charmux s.roms s.word s.slot = some c) (hs : s.StreamInv) : (charEffect c s).StreamInv := by
  obtain ⟨-, hleft, -⟩ := hs hm
  have hnext : (syllableTokens s.roms s.word)[s.slot.toNat - 1]? = some (.char c) := by
    rw [syllableTokens, List.getElem?_map, ← charmux_eq_syllable s.roms s.word s.slot h1 h5, hc]
    rfl
  have hpos : s.slot.toNat - 1 + 1 = s.slot.toNat := by bv_omega
  have hout : (syllableTokens s.roms s.word).take s.slot.toNat <:+ (charEffect c s).out :=
    hpos ▸ take_succ_suffix_append (hleft h1 h5) hnext
  intro _
  rcases slotAfterChar_cases h5 with ⟨hle, hk⟩ | hk
  · have hk' : (charEffect c s).slot.toNat = s.slot.toNat + 1 := hk
    refine ⟨fun h0 => ?_, fun _ _ => ?_, fun h6 => absurd (BitVec.le_trans h6 hle) (by decide)⟩
    · rw [h0] at hk'
      nomatch hk'
    · rw [hk', Nat.add_sub_cancel]
      exact hout
  · have h6 : 6 ≤ (charEffect c s).slot := by
      rcases hk with ⟨-, -, hk⟩ | ⟨-, -, hk⟩ <;> rw [charEffect_slot, hk] <;> decide
    have hlast : s.slot = 5 := hk.elim (·.1) (·.1)
    refine ⟨fun h0 => absurd (h0 ▸ h6) (by decide), fun _ h5 => absurd (BitVec.le_trans h6 h5) (by decide),
      fun _ _ => ?_⟩
    rw [hlast] at hout
    exact hout

theorem streamInv_commandStep (h : CommandStep s i t) (hp : s.pending = false) (hs : s.StreamInv) : t.StreamInv := by
  cases h with
  | raised hc => exact streamInv_of_not_active nofun
  | began n hm hn => exact streamInv_beginConversion n s
  | loaded b0 b1 hm => exact streamInv_loadPair hm (pending_eq_false.mp hp hm) hs

theorem streamInv_tokenStep (h : TokenStep s i t) (hp : s.pending = true) (hs : s.StreamInv) : t.StreamInv := by
  cases h with
  | hyphen hk => exact streamInv_of_slot_one rfl
  | char c h1 h5 hc => exact streamInv_charEffect (pending_eq_true.mp hp).1 h1 h5 hc hs
  | fin hk => exact streamInv_of_not_active nofun

/-- Settles O11: a character extends the part of its syllable that has left, and a hyphen becomes pending only
when a whole syllable has. -/
theorem stepKeepsTheStreamInvariant : Obligations.StepKeepsTheStreamInvariant := by
  unfold Obligations.StepKeepsTheStreamInvariant
  intro s t _ hs h
  exact step_keeps (fun _ _ _ hs => hs) (fun _ _ _ hc hp hs => streamInv_commandStep hc hp hs)
    (fun _ _ _ ht hp hs => streamInv_tokenStep ht hp hs) (fun _ _ => streamInv_of_not_active nofun) hs h

end Sys2Proof.Machine

namespace Sys2Proof.Machine

variable {s t : State} {i : Instr}

/-! ## What WORD holds (R36 (6)) -/

theorem commandStep_inQ (h : CommandStep s i t) : t.inQ = s.inQ := by cases h <;> rfl

theorem commandStep_turns (h : CommandStep s i t) : t.turns = s.turns := by cases h <;> rfl

theorem tokenStep_inQ (h : TokenStep s i t) : t.inQ = s.inQ := by cases h <;> rfl

theorem tokenStep_turns (h : TokenStep s i t) : t.turns = s.turns := by cases h <;> rfl

theorem tokenStep_word (h : TokenStep s i t) : t.word = s.word := by cases h <;> rfl

/-- Every step takes one turn, if there is one to take. -/
theorem step_turns (h : step s = .next t) : t.turns = s.turns.tail := by
  cases step_kind h with
  | idle ts q hts hq => exact hts
  | command hq hp he hc => exact commandStep_turns hc
  | token hp he ht => exact tokenStep_turns ht
  | reset ts ht => rfl

/-- Some character of WORD is still to leave: SLOT is 0 to 5 in a conversion. -/
def State.InSyllable (s : State) : Prop := s.mode = .active ∧ s.slot ≤ 5

/-- The last word accepted of those in `q` is a PAIR, WORD is that pair, and FIRST is 0. -/
def State.HoldsLastPair (q : List CmdWord) (s : State) : Prop :=
  ∃ (before : List CmdWord) (x : CmdWord) (b0 b1 : Byte),
    q = before ++ x :: s.inQ ∧ decodeCmd x = .pair b0 b1 ∧ s.word = b0 ++ b1 ∧ s.first = false

/-- R36 (6) along a run that was offered the words `q` and in which none is withdrawn: the words left are the last of
`q`, and WORD is as R36 says while a character of it is to leave. -/
structure State.PairFrom (q : List CmdWord) (s : State) : Prop where
  noWithdraw : Turn.withdraw ∉ s.turns
  offered : s.inQ <:+ q
  last : s.InSyllable → s.HoldsLastPair q

/-- Handing out a token enters no syllable and writes neither WORD nor, within one, FIRST. -/
theorem tokenStep_inSyllable (h : TokenStep s i t) (hp : s.pending = true) (ht : t.InSyllable) :
    s.InSyllable ∧ t.first = s.first := by
  have hm := (pending_eq_true.mp hp).1
  cases h with
  | hyphen hk => exact ⟨⟨hm, by simp [hk]⟩, rfl⟩
  | char c h1 h5 hc => exact ⟨⟨hm, h5⟩, rfl⟩
  | fin hk => exact nomatch ht.1

/-- A command that leaves a syllable to hand out is a PAIR, which has loaded it. -/
theorem commandStep_inSyllable (h : CommandStep s i t) (ht : t.InSyllable) :
    ∃ b0 b1, i = .pair b0 b1 ∧ t.word = b0 ++ b1 ∧ t.first = false := by
  obtain ⟨hm, h5⟩ := ht
  cases h with
  | raised hc => cases hm
  | began n _ hn =>
    rw [beginConversion_slot] at h5
    split at h5 <;> nomatch h5
  | loaded b0 b1 _ => exact ⟨b0, b1, rfl, rfl, rfl⟩

theorem step_keeps_pairFrom {q : List CmdWord} (hs : s.PairFrom q) (h : step s = .next t) : t.PairFrom q := by
  obtain ⟨hw, hq, hlast⟩ := hs
  have hw' : Turn.withdraw ∉ t.turns := fun hmem => hw (List.mem_of_mem_tail (step_turns h ▸ hmem))
  cases step_kind h with
  | idle ts q' hts hq' =>
    obtain rfl := hq' hw
    exact ⟨hw', hq, hlast⟩
  | @command _ x rest hx hp he hc =>
    have hinQ : t.inQ = rest := commandStep_inQ hc
    rw [hx, ← hinQ] at hq
    refine ⟨hw', (List.suffix_cons _ _).trans hq, fun ht => ?_⟩
    obtain ⟨before, rfl⟩ := hq
    obtain ⟨b0, b1, hi, hword, hfirst⟩ := commandStep_inSyllable hc ht
    exact ⟨before, x, b0, b1, rfl, hi, hword, hfirst⟩
  | token hp he ht =>
    have hinQ := tokenStep_inQ ht
    refine ⟨hw', hinQ ▸ hq, fun hin => ?_⟩
    obtain ⟨hin, hfirst⟩ := tokenStep_inSyllable ht hp hin
    obtain ⟨before, x, b0, b1, hq, hx, hword, hf⟩ := hlast hin
    exact ⟨before, x, b0, b1, hinQ ▸ hq, hx, (tokenStep_word ht).trans hword, hfirst.trans hf⟩
  | reset ts ht => exact ⟨hw', hq, fun hin => nomatch hin.1⟩

/-- Settles O12, by induction on the run: only a PAIR enters a syllable, and only a token is taken within one. -/
theorem wordIsTheLastAcceptedPair : Obligations.WordIsTheLastAcceptedPair := by
  unfold Obligations.WordIsTheLastAcceptedPair
  intro k s t hm hw hrun htm htk
  have hs : s.PairFrom s.inQ := ⟨hw, List.suffix_rfl, fun hin => absurd hin.1 hm⟩
  exact (runsTo_keeps (fun _ _ hs h => step_keeps_pairFrom hs h) hrun hs).last ⟨htm, htk⟩

end Sys2Proof.Machine

namespace Sys2Proof.Machine

variable {s t : State} {i : Instr}

/-! ## Which rule writes which register (R35) -/

/-- Only a START, a PAIR or an illegal word raises an error (R118). -/
theorem errorCause_instr {e : Err} {info : Length} (h : ErrorCause s i e info) :
    (∃ n, i = .start n) ∨ (∃ b0 b1, i = .pair b0 b1) ∨ ∃ d, i = .illegalOp00 d ∨ i = .illegalOp11 d := by
  cases h with
  | startInActive | startOdd => exact .inl ⟨_, rfl⟩
  | pairOutsideActive b0 b1 => exact .inr (.inl ⟨b0, b1, rfl⟩)
  | illegalOp00 d => exact .inr (.inr ⟨d, .inl rfl⟩)
  | illegalOp11 d => exact .inr (.inr ⟨d, .inr rfl⟩)

/-- Settles O13, rule by rule of the step. -/
theorem onlyTheListedRulesWriteARegister : Obligations.OnlyTheListedRulesWriteARegister := by
  unfold Obligations.OnlyTheListedRulesWriteARegister
  intro s t h hreset start pair illegal char fin raised
  cases step_kind h with
  | idle ts q hts hq =>
    exact ⟨absurd rfl, absurd rfl, absurd rfl, absurd rfl, absurd rfl, absurd rfl, absurd rfl, rfl⟩
  | reset ts ht => exact absurd ht (hreset ts)
  | @command _ x rest hq hp he hc =>
    generalize decodeCmd x = i at he hc
    cases hc with
    | @raised _ _ _ hc =>
      have hr : raised := ⟨by simpa only [start, pair, illegal, he, Option.some.injEq] using errorCause_instr hc, rfl⟩
      exact ⟨fun _ => .inr (.inr hr), fun _ => .inr (.inr (.inr (.inr (.inr hr)))), fun _ => .inr (.inr (.inr hr)),
        fun _ => .inr (.inr hr), absurd rfl, fun _ => .inr hr, fun _ => .inr hr, rfl⟩
    | began n _ hn =>
      have hst : start := ⟨n, he⟩
      exact ⟨fun _ => .inl hst, fun _ => .inl hst, fun _ => .inl hst, fun _ => .inl hst, absurd rfl,
        fun _ => .inl hst, fun _ => .inl hst, rfl⟩
    | loaded b0 b1 _ =>
      have hpr : pair := ⟨b0, b1, he⟩
      exact ⟨absurd rfl, fun _ => .inr (.inl hpr), fun _ => .inr (.inl hpr), fun _ => .inr (.inl hpr), fun _ => hpr,
        absurd rfl, absurd rfl, rfl⟩
  | token hp he ht =>
    cases ht with
    | hyphen hk =>
      exact ⟨absurd rfl, fun _ => .inr (.inr (.inl he)), absurd rfl, absurd rfl, absurd rfl, absurd rfl, absurd rfl,
        rfl⟩
    | char c =>
      exact ⟨absurd rfl, fun _ => .inr (.inr (.inr (.inl ⟨c, he⟩))), absurd rfl, absurd rfl, absurd rfl, absurd rfl,
        absurd rfl, rfl⟩
    | fin hk =>
      exact ⟨fun _ => .inr (.inl he), fun _ => .inr (.inr (.inr (.inr (.inl he)))), fun _ => .inr (.inr (.inl he)),
        absurd rfl, absurd rfl, absurd rfl, absurd rfl, rfl⟩

end Sys2Proof.Machine

namespace Sys2Proof.Machine

variable {s s' t t' : State} {i : Instr}

/-! ## An idle WORD is not observed (D28) -/

/-- `s` with another WORD and another count of free values drawn. -/
def State.withWord (w : PairWord) (f : Nat) (s : State) : State := { s with word := w, freeIdx := f }

@[simp] theorem State.withWord_mode (w : PairWord) (f : Nat) (s : State) : (s.withWord w f).mode = s.mode := rfl

theorem agree_iff : s.AgreeButIdleWord s' ↔ ∃ w f, s' = s.withWord w f ∧ (s.InSyllable → w = s.word) := by
  constructor
  · rintro ⟨hs, hw⟩
    exact ⟨s'.word, s'.freeIdx, hs, fun h => hw h.1 h.2⟩
  · rintro ⟨w, f, rfl, hw⟩
    exact ⟨rfl, fun hm h5 => hw ⟨hm, h5⟩⟩

/-- The pending instruction reads WORD in a syllable only. -/
theorem pendingInstr_withWord {w : PairWord} (f : Nat) (hw : s.InSyllable → w = s.word) :
    pendingInstr (s.withWord w f) = pendingInstr s := by
  by_cases hin : s.InSyllable
  · rw [hw hin]
    rfl
  · by_cases hp : s.pending = true
    · obtain ⟨hm, h6⟩ := pending_eq_true.mp hp
      have h7 : s.slot = 7 := by
        have h5 : ¬ s.slot ≤ 5 := fun h5 => hin ⟨hm, h5⟩
        bv_omega
      simp [pendingInstr, State.withWord, h7, State.pending]
    · have hp : s.pending = false := by simpa using hp
      rw [pendingInstr_none hp, pendingInstr_none (show (s.withWord w f).pending = false from hp)]

theorem agree_raise (e : Err) (info : Length) (w : PairWord) (f : Nat) (s : State) :
    (raise e info s).AgreeButIdleWord (raise e info (s.withWord w f)) := ⟨rfl, nofun⟩

theorem agree_startEffect (n : Length) (w : PairWord) (f : Nat) (s : State) :
    (startEffect n s).AgreeButIdleWord (startEffect n (s.withWord w f)) := by
  by_cases hm : s.mode = .active
  · simp only [startEffect, State.withWord_mode, hm, if_true]
    exact agree_raise ..
  cases hn : oddLength n with
  | true =>
    simp only [startEffect, State.withWord_mode, hm, hn, if_true, if_false]
    exact agree_raise ..
  | false =>
    simp only [startEffect, State.withWord_mode, hm, hn, if_false, Bool.false_eq_true]
    refine ⟨rfl, fun _ h5 => ?_⟩
    rw [beginConversion_slot] at h5
    split at h5 <;> nomatch h5

/-- A PAIR loads its own word, whatever WORD held. -/
theorem agree_pairEffect (p w : PairWord) (f : Nat) (s : State) :
    (pairEffect p s).AgreeButIdleWord (pairEffect p (s.withWord w f)) := by
  by_cases hm : s.mode = .active
  · simp only [pairEffect, State.withWord_mode, hm, if_true]
    exact ⟨rfl, fun _ _ => rfl⟩
  · simp only [pairEffect, State.withWord_mode, hm, if_false]
    exact agree_raise ..

theorem agree_commandEffect (i : Instr) (h : s.AgreeButIdleWord s') :
    (commandEffect i s).AgreeButIdleWord (commandEffect i s') := by
  obtain ⟨w, f, rfl, -⟩ := agree_iff.mp h
  cases i with
  | start n => exact agree_startEffect n w f s
  | pair b0 b1 => exact agree_pairEffect _ w f s
  | illegalOp00 d | illegalOp11 d => exact agree_raise ..
  | hyphen | char c | endTok => exact h

/-- The same token leaves two such states in the same way. -/
theorem agree_tokenStep (h : s.AgreeButIdleWord s') (hm : s.mode = .active) (ht : TokenStep s i t)
    (ht' : TokenStep s' i t') : t.AgreeButIdleWord t' := by
  obtain ⟨w, f, rfl, hw⟩ := agree_iff.mp h
  cases ht with
  | hyphen hk =>
    cases ht'
    exact ⟨rfl, fun _ _ => hw ⟨hm, by simp [hk]⟩⟩
  | char c h1 h5 hc =>
    cases ht'
    exact ⟨rfl, fun _ _ => hw ⟨hm, h5⟩⟩
  | fin hk =>
    cases ht'
    exact ⟨rfl, nofun⟩

/-- Settles O54: no command reads WORD, and the token that is due reads it in a syllable only. -/
theorem idleWordIsUnobservable : Obligations.IdleWordIsUnobservable := by
  unfold Obligations.IdleWordIsUnobservable
  intro s s' t hag h
  obtain ⟨w, f, rfl, hw⟩ := agree_iff.mp hag
  have hport (ts : List Turn) (q : List CmdWord) : State.AgreeButIdleWord { s with turns := ts, inQ := q }
      { s.withWord w f with turns := ts, inQ := q } := agree_iff.mpr ⟨w, f, rfl, hw⟩
  rcases step_cases h with ⟨ht, rfl⟩ | ⟨u, ts, ht, hu⟩
  · exact ⟨_, step_wait ht, hag⟩
  rcases hu with ⟨rfl, hq, rfl⟩ | ⟨rfl, x, rest, hq, hr, hp, rfl⟩ | ⟨rfl, hr, hp, rfl⟩ | ⟨rfl, hr, hp, he⟩ |
    ⟨rfl, rfl⟩ | ⟨rfl, rfl⟩
  · exact ⟨_, step_accept_held (s := s.withWord w f) ht hq, hport ts s.inQ⟩
  · exact ⟨_, step_accept (s := s.withWord w f) ht hq hr hp, agree_commandEffect _ (hport ts rest)⟩
  · exact ⟨_, step_emit_idle (s := s.withWord w f) ht hr hp, hport ts s.inQ⟩
  · obtain ⟨t', h', he'⟩ := step_emit (s := s.withWord w f) ht hr hp
    obtain ⟨i, _, hi, -⟩ := exec_pending hr hp
    have hi' : pendingInstr (s.withWord w f) = some i := (pendingInstr_withWord f hw).trans hi
    exact ⟨t', h', agree_tokenStep (hport ts s.inQ) (pending_eq_true.mp hp).1 (pendingInstr_tokenStep hi he)
      (pendingInstr_tokenStep hi' he')⟩
  · exact ⟨_, step_reset (s := s.withWord w f) ht, rfl, nofun⟩
  · exact ⟨_, step_withdraw (s := s.withWord w f) ht, hport ts s.inQ.tail⟩

end Sys2Proof.Machine

namespace Sys2Proof.Machine

/-! ## The signals (R32) and STATUS (R33) -/

/-- Settles O8: the slots 0, 7 and 1 to 5 exclude each other, and the multiplexer of slot k reads the syllable. -/
theorem handshakeSignals : Obligations.HandshakeSignals := by
  unfold Obligations.HandshakeSignals
  intro s
  refine ⟨pending_eq_true, rfl, rfl, fun hp => ?_, fun hp h0 => ?_, fun hp h7 => ?_, fun hp h1 h5 => ?_⟩ <;>
    unfold State.outToken
  · rw [if_neg (by simp [hp])]
  · rw [if_pos hp, if_pos h0]
    rfl
  · rw [if_pos hp, if_neg (by simp [h7]), if_pos h7]
  · have h0 : s.slot ≠ 0 := fun h => absurd (h ▸ h1) (by decide)
    have h7 : s.slot ≠ 7 := fun h => absurd (h ▸ h5) (by decide)
    rw [if_pos hp, if_neg h0, if_neg h7, charmux_eq_syllable s.roms s.word s.slot h1 h5]

/-- A field of STATUS, moved to bit `k`, read at bit `i`. -/
theorem getLsbD_field {n : Nat} (x : BitVec n) (k : Nat) {i : Nat} (hi : i < 32) :
    (x.setWidth 32 <<< k).getLsbD i = (decide (k ≤ i) && x.getLsbD (i - k)) := by
  rw [BitVec.getLsbD_shiftLeft, BitVec.getLsbD_setWidth]
  grind

/-- STATUS bit by bit (R33): the fields do not overlap, because each is 0 beyond its own width. -/
theorem status_getLsbD (s : State) {i : Nat} (hi : i < 32) : s.status.getLsbD i =
    if i < 2 then s.mode.code.getLsbD i else if i < 4 then s.errCode.code.getLsbD (i - 2)
    else if i = 4 then s.inReady else if i = 5 then s.outValid
    else if i < 16 then false else s.errLen.getLsbD (i - 16) := by
  have hmode := getLsbD_field s.mode.code 0 hi
  rw [BitVec.shiftLeft_zero] at hmode
  simp only [State.status, statusBit, BitVec.getLsbD_or, getLsbD_field _ _ hi, hmode]
  grind [BitVec.getLsbD_ofBool]

theorem status_mode (s : State) : s.status.extractLsb' 0 2 = s.mode.code := by
  ext i hi
  rw [BitVec.getElem_extractLsb', status_getLsbD s (by omega), if_pos (by omega), Nat.zero_add,
    BitVec.getLsbD_eq_getElem hi]

theorem status_errCode (s : State) : s.status.extractLsb' 2 2 = s.errCode.code := by
  ext i hi
  rw [BitVec.getElem_extractLsb', status_getLsbD s (by omega), if_neg (by omega), if_pos (by omega),
    Nat.add_sub_cancel_left, BitVec.getLsbD_eq_getElem hi]

theorem status_inReady (s : State) : s.status.getLsbD 4 = s.inReady := status_getLsbD s (by decide)

theorem status_outValid (s : State) : s.status.getLsbD 5 = s.outValid := status_getLsbD s (by decide)

theorem status_reserved (s : State) : s.status.extractLsb' 6 10 = 0 := by
  ext i hi
  rw [BitVec.getElem_extractLsb', status_getLsbD s (by omega), if_neg (by omega), if_neg (by omega),
    if_neg (by omega), if_neg (by omega), if_pos (by omega)]
  exact (BitVec.getElem_zero hi).symm

theorem status_errLen (s : State) : s.status.extractLsb' 16 16 = s.errLen := by
  ext i hi
  rw [BitVec.getElem_extractLsb', status_getLsbD s (by omega), if_neg (by omega), if_neg (by omega),
    if_neg (by omega), if_neg (by omega), if_neg (by omega), Nat.add_sub_cancel_left, BitVec.getLsbD_eq_getElem hi]

/-- Settles O7, field by field. -/
theorem statusLayout : Obligations.StatusLayout := by
  unfold Obligations.StatusLayout
  exact ⟨fun s => ⟨status_mode s, status_errCode s, status_inReady s, status_outValid s, status_reserved s,
    status_errLen s⟩, ⟨rfl, rfl, rfl⟩, ⟨rfl, rfl, rfl, rfl⟩, rfl⟩

/-! ## The reset state and the tables -/

/-- Settles O9: in the reset state every field is a literal, and no conversion runs. -/
theorem resetStateMeetsTheInvariants : Obligations.ResetStateMeetsTheInvariants := by
  unfold Obligations.ResetStateMeetsTheInvariants
  exact ⟨by decide, streamInv_of_not_active nofun, by decide, rfl⟩

/-- Settles O15: a legal ROM pair is R29's and R30's tables around three configuration values. -/
theorem tablesHoldTheAlphabet : Obligations.TablesHoldTheAlphabet := by
  unfold Obligations.TablesHoldTheAlphabet
  refine ⟨fun r ⟨_, htables⟩ => ?_, rfl⟩
  rw [htables]
  exact ⟨rfl, rfl⟩

end Sys2Proof.Machine

namespace Sys2Proof.Machine

variable {s t : State} {i : Instr}

/-! ## Words leave IN one at a time (R56, R57) -/

/-- A command hands out no token. -/
theorem commandStep_out (h : CommandStep s i t) : t.out = s.out := by cases h <;> rfl

/-- Handing out a token leaves the words on IN. -/
theorem emitEffect_inQ (h : EmitEffect s t) : t.inQ = s.inQ := by
  rcases h with ⟨-, rfl⟩ | ⟨-, -, c, -, rfl⟩ | ⟨-, rfl⟩ <;> rfl

/-- Settles O53: of all that a step can do, only an accepted command and a withdrawal take a word from IN. -/
theorem wordsAreTakenInOrderWithNothingPending : Obligations.WordsAreTakenInOrderWithNothingPending := by
  unfold Obligations.WordsAreTakenInOrderWithNothingPending
  intro s t h hne
  rcases step_cases h with ⟨-, rfl⟩ | ⟨u, ts, ht, hu⟩
  · exact absurd rfl hne
  rcases hu with ⟨-, -, rfl⟩ | ⟨rfl, x, rest, hq, -, hp, rfl⟩ | ⟨-, -, -, rfl⟩ | ⟨-, -, -, he⟩ | ⟨-, rfl⟩ | ⟨rfl, rfl⟩
  · exact absurd rfl hne
  · have hc := commandEffect_commandStep x { s with turns := ts, inQ := rest }
    have hout := commandStep_out hc
    exact .inr ⟨x, ts, ht, by rw [hq, commandStep_inQ hc], hp, hout⟩
  · exact absurd rfl hne
  · exact absurd (emitEffect_inQ he) hne
  · exact absurd rfl hne
  · exact .inl ⟨ts, ht, rfl, rfl⟩

end Sys2Proof.Machine

namespace Sys2Proof.Machine

/-! ## The IN port: OP decides the command (R64, R65, R73) -/

/-- OP has four values, one per row of R65. -/
theorem opField_cases (x : CmdWord) :
    opField x = 0b01#2 ∨ opField x = 0b10#2 ∨ opField x = 0b00#2 ∨ opField x = 0b11#2 := by
  generalize opField x = op
  revert op
  decide

theorem decodeCmd_of_op01 {x : CmdWord} (h : opField x = 0b01#2) : decodeCmd x = .start (dataField x) := if_pos h

theorem decodeCmd_of_op10 {x : CmdWord} (h : opField x = 0b10#2) :
    decodeCmd x = .pair (highByte (dataField x)) (lowByte (dataField x)) := by simp [decodeCmd, h]

theorem decodeCmd_of_op00 {x : CmdWord} (h : opField x = 0b00#2) : decodeCmd x = .illegalOp00 (dataField x) := by
  simp [decodeCmd, h]

theorem decodeCmd_of_op11 {x : CmdWord} (h : opField x = 0b11#2) : decodeCmd x = .illegalOp11 (dataField x) := by
  simp [decodeCmd, h]

/-- A CMD word whose OP is known is that OP and its DATA. -/
theorem cmdWord_dataField {x : CmdWord} {op : BitVec 2} (h : opField x = op) : cmdWord op (dataField x) = x :=
  h ▸ cmdWord_fields x

/-- The command read from a CMD word encodes to that word. -/
theorem encode_decodeCmd (x : CmdWord) : encode (decodeCmd x) = .cmd x := by
  rcases opField_cases x with h | h | h | h
  · rw [decodeCmd_of_op01 h, encode, cmdWord_dataField h]
  · rw [decodeCmd_of_op10 h, encode, append_bytes, cmdWord_dataField h]
  · rw [decodeCmd_of_op00 h, encode, cmdWord_dataField h]
  · rw [decodeCmd_of_op11 h, encode, cmdWord_dataField h]

theorem wf_decodeCmd (x : CmdWord) : (decodeCmd x).wf = true := by
  rcases opField_cases x with h | h | h | h
  · rw [decodeCmd_of_op01 h, Instr.wf]
  · rw [decodeCmd_of_op10 h, Instr.wf]
  · rw [decodeCmd_of_op00 h, Instr.wf]
  · rw [decodeCmd_of_op11 h, Instr.wf]

/-- B0 is bits [15:8] of the CMD word (R67). -/
theorem highByte_dataField (x : CmdWord) : highByte (dataField x) = x.extractLsb' 8 8 :=
  BitVec.extractLsb'_extractLsb'_of_le (by decide)

/-- B1 is bits [7:0] of the CMD word (R67). -/
theorem lowByte_dataField (x : CmdWord) : lowByte (dataField x) = x.extractLsb' 0 8 :=
  BitVec.extractLsb'_extractLsb'_of_le (by decide)

/-! ## The OUT port: K decides the kind of token (R69, R70, R74) -/

/-- A TOK word is K and C. -/
theorem tokWord_fields (t : TokWord) : BitVec.ofBool (kindBit t) ++ codeField t = t := by
  have hk : BitVec.ofBool (kindBit t) = t.extractLsb' 8 1 := by
    ext i hi
    obtain rfl : i = 0 := by omega
    simp [kindBit]
  rw [hk]
  exact append_extract (m := 1) (n := 8) t

theorem tokWord_toNat (t : TokWord) : t.toNat = 256 * (kindBit t).toNat + (codeField t).toNat := by
  conv_lhs => rw [← tokWord_fields t]
  rw [BitVec.toNat_append, ← Nat.shiftLeft_add_eq_or_of_lt (codeField t).isLt, Nat.shiftLeft_eq, BitVec.toNat_ofBool,
    Nat.mul_comm]

theorem char_codeField {t : TokWord} (h : kindBit t = false) : (Token.char (codeField t)).word = t := by
  have ht := tokWord_fields t
  rw [h] at ht
  exact ht

/-- The words from 0x101 on are those with K = 1 and another C than 0: the reserved ones (R70). -/
theorem kindBit_codeField_of_reserved {t : TokWord} (h : 0x101 ≤ t.toNat) :
    kindBit t = true ∧ codeField t ≠ 0x00#8 := by
  have ht := tokWord_toNat t
  have hc := (codeField t).isLt
  constructor
  · by_contra hk
    rw [Bool.not_eq_true] at hk
    rw [hk, Bool.toNat_false] at ht
    omega
  · intro h0
    have hk := Bool.toNat_le (kindBit t)
    rw [h0, BitVec.toNat_zero] at ht
    omega

/-- Every TOK word is a character's, the end marker's or reserved (R69, R70). -/
theorem tokWord_cases (t : TokWord) : kindBit t = false ∨ t = Token.fin.word ∨ 0x101 ≤ t.toNat := by
  cases hk : kindBit t with
  | false => exact .inl rfl
  | true =>
    have ht := tokWord_toNat t
    rw [hk, Bool.toNat_true] at ht
    by_cases h : t.toNat = 0x100
    · exact .inr (.inl (BitVec.eq_of_toNat_eq h))
    · exact .inr (.inr (by omega))

theorem decodeTok_of_kindBit_false {t : TokWord} (h : kindBit t = false) :
    decodeTok t = .ok (if codeField t = Config.hyphenCode then .hyphen else .char (codeField t)) := by
  rw [decodeTok, if_pos h]
  split <;> rfl

theorem decodeTok_fin : decodeTok Token.fin.word = .ok .endTok := rfl

theorem decodeTok_reserved {t : TokWord} (h : 0x101 ≤ t.toNat) : decodeTok t = .error (.reservedToken t) := by
  obtain ⟨hk, hc⟩ := kindBit_codeField_of_reserved h
  rw [decodeTok, if_neg (by simp [hk]), if_neg hc]

theorem receiveToken_of_kindBit_false {t : TokWord} (h : kindBit t = false) :
    receiveToken t = .next (.char (codeField t)) := if_pos h

theorem receiveToken_fin : receiveToken Token.fin.word = .next .fin := rfl

theorem receiveToken_reserved {t : TokWord} (h : 0x101 ≤ t.toNat) : receiveToken t = .fault (.reservedToken t) := by
  obtain ⟨hk, hc⟩ := kindBit_codeField_of_reserved h
  rw [receiveToken, if_neg (by simp [hk]), if_neg hc]

/-- CHAR of the hyphen's code is the HYPHEN row (R75). -/
theorem decodeTok_char (c : Byte) :
    decodeTok (Token.char c).word = .ok (if c = Config.hyphenCode then .hyphen else .char c) := by
  rw [decodeTok_of_kindBit_false (kindBit_char c), codeField_char]

/-- The OUT decoder's answer is well-formed and encodes to the word read. -/
theorem encode_of_decodeTok {t : TokWord} {i : Instr} (h : decodeTok t = .ok i) :
    i.wf = true ∧ encode i = .tok t := by
  rcases tokWord_cases t with hk | rfl | hres
  · rw [decodeTok_of_kindBit_false hk, Except.ok.injEq] at h
    rw [← char_codeField hk]
    subst h
    split
    next hc => exact ⟨rfl, by rw [encode, hc]⟩
    next hc => exact ⟨by simpa [Instr.wf] using hc, rfl⟩
  · rw [decodeTok_fin, Except.ok.injEq] at h
    subst h
    exact ⟨rfl, rfl⟩
  · rw [decodeTok_reserved hres] at h
    cases h

/-! ## Decoding and encoding agree (R73 to R75) -/

/-- Settles O2, row by row of the opcode map: each field of the word gives back its operand. -/
theorem decodeOfEncodeGivesTheInstruction : Obligations.DecodeOfEncodeGivesTheInstruction := by
  unfold Obligations.DecodeOfEncodeGivesTheInstruction
  intro i hwf
  cases i with
  | start n => rw [encode, decode, decodeCmd_of_op01 (opField_cmdWord _ n), dataField_cmdWord]
  | pair b0 b1 =>
    rw [encode, decode, decodeCmd_of_op10 (opField_cmdWord _ _), dataField_cmdWord, highByte_append, lowByte_append]
  | illegalOp00 d => rw [encode, decode, decodeCmd_of_op00 (opField_cmdWord _ d), dataField_cmdWord]
  | illegalOp11 d => rw [encode, decode, decodeCmd_of_op11 (opField_cmdWord _ d), dataField_cmdWord]
  | hyphen => rw [encode, decode, decodeTok_char, if_pos rfl]
  | char c =>
    have hc : c ≠ Config.hyphenCode := by simpa [Instr.wf] using hwf
    rw [encode, decode, decodeTok_char, if_neg hc]
  | endTok => rw [encode, decode, decodeTok_fin]

/-- Settles O3, port by port: a word is the concatenation of the fields its decoder reads. -/
theorem encodeOfDecodeGivesTheWord : Obligations.EncodeOfDecodeGivesTheWord := by
  unfold Obligations.EncodeOfDecodeGivesTheWord
  intro x i h
  cases x with
  | cmd x =>
    rw [decode, Except.ok.injEq] at h
    exact h ▸ ⟨wf_decodeCmd x, encode_decodeCmd x⟩
  | tok t => exact encode_of_decodeTok h

/-- Settles O5: K = 0, K = 1 with C = 0, and the words from 0x101 on. -/
theorem tokenWordsDecodeByKind : Obligations.TokenWordsDecodeByKind := by
  unfold Obligations.TokenWordsDecodeByKind
  refine fun t => ⟨fun hk => ⟨receiveToken_of_kindBit_false hk, decodeTok_of_kindBit_false hk⟩, ?_,
    fun h => ⟨receiveToken_reserved h, decodeTok_reserved h⟩⟩
  rintro rfl
  exact ⟨receiveToken_fin, decodeTok_fin⟩

/-- Settles O4: the decoder tests OP, and DATA's two bytes are the word's low two bytes. -/
theorem commandWordsDecodeByOp : Obligations.CommandWordsDecodeByOp := by
  unfold Obligations.CommandWordsDecodeByOp
  refine fun x => ⟨decodeCmd_of_op01, fun h => ?_, decodeCmd_of_op00, decodeCmd_of_op11⟩
  rw [decodeCmd_of_op10 h, highByte_dataField, lowByte_dataField]

/-- Settles O1: each word is the encoding of its instruction, or a reserved one. -/
theorem writtenOutWordsDecode : Obligations.WrittenOutWordsDecode := by
  unfold Obligations.WrittenOutWordsDecode
  have hdecode := decodeOfEncodeGivesTheInstruction
  exact ⟨hdecode (.start 4) rfl, hdecode (.start 65535) rfl, hdecode (.pair 127 0) rfl,
    hdecode (.illegalOp00 0xFFFF) rfl, hdecode (.illegalOp11 0xABCD) rfl, hdecode .hyphen rfl,
    hdecode (.char 0x62) rfl, hdecode .endTok rfl, decodeTok_reserved (by decide)⟩

end Sys2Proof.Machine

namespace Sys2Proof.Machine

/-! ## The pseudo-instruction ENCODE (R77, R78) -/

/-- The PAIR commands of a byte sequence are, on IN, the words OP = 0b10 of its pair words, in order. -/
theorem commandWords_pairCommands (bs : List Byte) :
    commandWords (pairCommands bs) = (pairWords bs).map (cmdWord 0b10#2) := by
  induction bs using pairCommands.induct with
  | case1 b0 b1 rest ih =>
    rw [pairCommands, pairWords, List.map_cons, ← ih]
    rfl
  | case2 bs h =>
    rw [pairCommands.eq_2 bs h, pairWords.eq_2 bs h]
    rfl

theorem expandEncode_even {bs : List Byte} (hlen : bs.length < 65536) (heven : bs.length % 2 = 0) :
    expandEncode bs = some (.start (BitVec.ofNat 16 bs.length) :: pairCommands bs) := by
  rw [expandEncode, if_pos hlen, if_pos heven]

theorem expandEncode_odd {bs : List Byte} (hlen : bs.length < 65536) (hodd : bs.length % 2 = 1) :
    expandEncode bs = some [.start (BitVec.ofNat 16 bs.length)] := by
  rw [expandEncode, if_pos hlen, if_neg (by omega)]

theorem expandEncode_tooLong {bs : List Byte} (hlen : 65536 ≤ bs.length) : expandEncode bs = none :=
  if_neg (Nat.not_lt.mpr hlen)

/-- Settles O6: the word of START, then the PAIRs by induction over the bytes, two at a time. -/
theorem encodePseudoInstructionExpands : Obligations.EncodePseudoInstructionExpands := by
  unfold Obligations.EncodePseudoInstructionExpands
  refine ⟨fun bs hlen heven => ⟨_, expandEncode_even hlen heven, ?_⟩, fun bs => expandEncode_odd,
    fun bs => expandEncode_tooLong⟩
  exact congrArg (List.cons (cmdWord 0b01#2 (BitVec.ofNat 16 bs.length))) (commandWords_pairCommands bs)

end Sys2Proof.Machine

namespace Sys2Proof.Machine

variable {s t : State} {i : Instr}

/-! ## What leaves on OUT (R70) -/

/-- END is the greatest TOK word of a token; the reserved ones are greater (R69, R70). -/
theorem token_word_le (tok : Token) : tok.word.toNat ≤ 0x100 := by
  cases tok with
  | char c =>
    rw [tokWord_toNat, kindBit_char, codeField_char, Bool.toNat_false]
    have := c.isLt
    omega
  | fin => exact Nat.le_refl 0x100

/-- What the character multiplexer selects is an entry of ROM_C or of ROM_V (R80 to R83). -/
theorem charmux_mem_tables {r : Roms} {w : PairWord} {k : BitVec 3} {c : Byte} (h : charmux r w k = some c) :
    (∃ i, c = cons r i) ∨ ∃ j, c = vow r j := by
  unfold charmux at h
  split at h <;> cases h
  · exact .inl ⟨_, rfl⟩
  · exact .inr ⟨_, rfl⟩
  · exact .inl ⟨_, rfl⟩
  · exact .inr ⟨_, rfl⟩
  · exact .inl ⟨_, rfl⟩

/-- The token handed out in a step that hands one out: END, the hyphen or a table entry. -/
theorem tokenStep_out (h : TokenStep s i t) : ∃ tok, t.out = s.out ++ [tok] ∧
    (tok = .fin ∨ tok = .char Config.hyphenCode ∨ (∃ i, tok = .char (cons s.roms i)) ∨
      ∃ j, tok = .char (vow s.roms j)) := by
  cases h with
  | hyphen hk => exact ⟨_, rfl, .inr (.inl rfl)⟩
  | char c h1 h5 hc =>
    refine ⟨_, rfl, .inr (.inr ?_)⟩
    rcases charmux_mem_tables hc with ⟨i, rfl⟩ | ⟨j, rfl⟩
    · exact .inl ⟨i, rfl⟩
    · exact .inr ⟨j, rfl⟩
  | fin hk => exact ⟨_, rfl, .inl rfl⟩

/-- Settles O26: of all that a step can do, only handing out the pending token writes OUT. -/
theorem onlyAlphabetHyphenAndEndAreEmitted : Obligations.OnlyAlphabetHyphenAndEndAreEmitted := by
  unfold Obligations.OnlyAlphabetHyphenAndEndAreEmitted
  intro s t h
  cases step_kind h with
  | idle ts q hts hq => exact .inl rfl
  | command hq hp he hc =>
    have hout := commandStep_out hc
    exact .inl hout
  | token hp he ht =>
    obtain ⟨tok, hout, htok⟩ := tokenStep_out ht
    exact .inr ⟨tok, hout, token_word_le tok, htok⟩
  | reset ts ht => exact .inl rfl

end Sys2Proof.Machine

namespace Sys2Proof.Machine

/-! ## The five fields of a pair word (R79, R88) -/

/-- Settles O32, bit by bit: each bit of a byte stands in one field, at the place its equation shifts it to. -/
theorem fieldsReassembleTheWord : Obligations.FieldsReassembleTheWord := by
  unfold Obligations.FieldsReassembleTheWord
  intro w
  constructor
  all_goals
    apply BitVec.eq_of_getLsbD_eq
    intro i hi
    interval_cases i <;> simp [slice]

/-- A pair word is determined by its five fields: they give back both bytes (R88). -/
theorem slice_injective : Function.Injective slice := by
  intro v w h
  obtain ⟨hvHigh, hvLow⟩ := fieldsReassembleTheWord v
  obtain ⟨hwHigh, hwLow⟩ := fieldsReassembleTheWord w
  have hhigh : highByte v = highByte w := by rw [highByte, hvHigh, h, ← hwHigh, highByte]
  have hlow : lowByte v = lowByte w := by rw [lowByte, hvLow, h, ← hwLow, lowByte]
  rw [← append_bytes v, ← append_bytes w, hhigh, hlow]

/-! ## The two tables (R29, R30, R7) -/

/-- The consonant table is the three configuration values and the 13 fixed codes, in another order. -/
theorem consonants_perm (c9 c11 c14 : Byte) :
    (Config.consonants c9 c11 c14).toList.Perm ([c9, c11, c14] ++ Config.fixedConsonants) := by
  rw [List.perm_iff_count]
  intro c
  simp only [Config.consonants, Config.fixedConsonants, Vector.toList_mk, List.count_cons, List.cons_append,
    List.nil_append, List.count_nil]
  omega

theorem consonants_nodup {c9 c11 c14 : Byte} (h : Config.legal c9 c11 c14) :
    (Config.consonants c9 c11 c14).toList.Nodup := by
  obtain ⟨hnodup, hfixed, -⟩ := h
  rw [(consonants_perm c9 c11 c14).nodup_iff, List.nodup_append']
  exact ⟨hnodup, by decide, hfixed⟩

theorem hyphen_notMem_consonants {c9 c11 c14 : Byte} (h : Config.legal c9 c11 c14) :
    Config.hyphenCode ∉ (Config.consonants c9 c11 c14).toList := by
  obtain ⟨-, -, hhyphen⟩ := h
  rw [(consonants_perm c9 c11 c14).mem_iff, List.mem_append, not_or]
  exact ⟨fun hmem => hhyphen _ hmem rfl, by decide⟩

theorem vowels_nodup : Config.vowels.toList.Nodup := by decide

theorem hyphen_notMem_vowels : Config.hyphenCode ∉ Config.vowels.toList := by decide

/-- The entries of a legal ROM_C are distinct, so a consonant determines its index. -/
theorem cons_injective {r : Roms} (hr : r.legal) : Function.Injective (cons r) := by
  obtain ⟨hlegal, htables⟩ := hr
  intro i j h
  rw [htables] at h
  exact BitVec.eq_of_toNat_eq (((consonants_nodup hlegal).getElem_inj_iff (hi := i.isLt) (hj := j.isLt)).mp h)

/-- The entries of a legal ROM_V are distinct, so a vowel determines its index. -/
theorem vow_injective {r : Roms} (hr : r.legal) : Function.Injective (vow r) := by
  intro i j h
  rw [hr.2] at h
  exact BitVec.eq_of_toNat_eq ((vowels_nodup.getElem_inj_iff (hi := i.isLt) (hj := j.isLt)).mp h)

theorem cons_ne_hyphen {r : Roms} (hr : r.legal) (i : ConsIndex) : cons r i ≠ Config.hyphenCode := by
  obtain ⟨hlegal, htables⟩ := hr
  intro h
  have hmem : cons r i ∈ r.romC.toList := Vector.mem_toList_iff.mpr (Vector.getElem_mem i.isLt)
  rw [h, htables] at hmem
  exact hyphen_notMem_consonants hlegal hmem

theorem vow_ne_hyphen {r : Roms} (hr : r.legal) (j : VowIndex) : vow r j ≠ Config.hyphenCode := by
  intro h
  have hmem : vow r j ∈ r.romV.toList := Vector.mem_toList_iff.mpr (Vector.getElem_mem j.isLt)
  rw [h, hr.2] at hmem
  exact hyphen_notMem_vowels hmem

/-! ## The syllable of a pair word (R84) -/

/-- Settles O33: the five characters give the five table indices, and these the word. -/
theorem syllablesAreInjective : Obligations.SyllablesAreInjective := by
  unfold Obligations.SyllablesAreInjective
  intro r v w hr h
  simp only [syllable, mapFields, List.cons.injEq, and_true] at h
  obtain ⟨h1, h2, h3, h4, h5⟩ := h
  apply slice_injective
  exact (Fields.mk.injEq ..).mpr
    ⟨cons_injective hr h1, vow_injective hr h2, cons_injective hr h3, vow_injective hr h4, cons_injective hr h5⟩

@[simp] theorem syllable_length (r : Roms) (w : PairWord) : (syllable r w).length = 5 := rfl

/-- A character on OUT is the separator of slot 0, or the multiplexer's. -/
theorem outToken_eq_char {s : State} {c : Byte} (h : s.outToken = some (.char c)) :
    s.slot = 0 ∨ charmux s.roms s.word s.slot = some c := by
  unfold State.outToken at h
  split at h
  · split at h
    · exact .inl ‹_›
    · split at h
      · cases h
      · obtain ⟨d, hd, hdc⟩ := Option.map_eq_some_iff.mp h
        cases hdc
        exact .inr hd
  · cases h

/-- Settles O39: the multiplexer selects table entries only, so the separator of slot 0 is left. -/
theorem hyphenIsNoTableEntry : Obligations.HyphenIsNoTableEntry := by
  unfold Obligations.HyphenIsNoTableEntry
  refine ⟨fun r hr => ⟨cons_ne_hyphen hr, vow_ne_hyphen hr⟩, fun s hr h => ?_⟩
  rcases outToken_eq_char h with hslot | hchar
  · exact hslot
  · rcases charmux_mem_tables hchar with ⟨i, hi⟩ | ⟨j, hj⟩
    · exact absurd hi.symm (cons_ne_hyphen hr i)
    · exact absurd hj.symm (vow_ne_hyphen hr j)

/-! ## The pair words of a byte sequence (R47, R85) -/

theorem pairWords_length : ∀ bs : List Byte, (pairWords bs).length = bs.length / 2
  | [] => rfl
  | [_] => (Nat.div_eq_of_lt Nat.one_lt_two).symm
  | b0 :: b1 :: rest => by
    rw [pairWords, List.length_cons, pairWords_length rest]
    exact (Nat.add_div_right rest.length Nat.two_pos).symm

/-- w_k = b[2k] ++ b[2k+1] (R85). -/
theorem pairWords_getElem? : ∀ {bs : List Byte} {k : Nat} (h : 2 * k + 1 < bs.length),
    (pairWords bs)[k]? = some (pairWord bs[2 * k] bs[2 * k + 1])
  | _ :: _ :: _, 0, _ => rfl
  | _ :: _ :: _, _ + 1, h => pairWords_getElem? (Nat.lt_of_add_lt_add_right (n := 2) h)

/-- Pieces of even length: no pair lies across the cut (R89). -/
theorem pairWords_append : ∀ {as : List Byte} (bs : List Byte), as.length % 2 = 0 →
    pairWords (as ++ bs) = pairWords as ++ pairWords bs
  | [], _, _ => rfl
  | b0 :: b1 :: rest, bs, h => by
    have hrest : rest.length % 2 = 0 := (Nat.add_mod_right rest.length 2).symm.trans h
    exact congrArg (List.cons (pairWord b0 b1)) (pairWords_append bs hrest)

theorem pairWords_ne_nil {bs : List Byte} (heven : bs.length % 2 = 0) (hbs : bs ≠ []) : pairWords bs ≠ [] := by
  have hpos := List.length_pos_iff.mpr hbs
  rw [← List.length_pos_iff, pairWords_length]
  omega

/-- The bytes of a sequence of pair words: the inverse of `pairWords` on even lengths (`wordBytes_pairWords`). -/
def wordBytes (ws : List PairWord) : List Byte := ws.flatMap fun w => [highByte w, lowByte w]

theorem wordBytes_pairWords : ∀ {bs : List Byte}, bs.length % 2 = 0 → wordBytes (pairWords bs) = bs
  | [], _ => rfl
  | b0 :: b1 :: rest, h => by
    have hrest : rest.length % 2 = 0 := (Nat.add_mod_right rest.length 2).symm.trans h
    calc wordBytes (pairWords (b0 :: b1 :: rest))
      _ = highByte (b0 ++ b1) :: lowByte (b0 ++ b1) :: wordBytes (pairWords rest) := rfl
      _ = b0 :: b1 :: rest := by rw [highByte_append, lowByte_append, wordBytes_pairWords hrest]

/-! ## The string of a sequence of pair words: blocks of six characters (R85) -/

theorem proquint_cons {r : Roms} (w : PairWord) {ws : List PairWord} (h : ws ≠ []) :
    proquint r (w :: ws) = syllable r w ++ Config.hyphenCode :: proquint r ws := by
  cases ws with
  | nil => exact absurd rfl h
  | cons v ws => rfl

theorem take_proquint_cons (r : Roms) (w : PairWord) (ws : List PairWord) :
    (proquint r (w :: ws)).take 5 = syllable r w := by
  cases ws <;> rfl

theorem drop_proquint_cons (r : Roms) (w : PairWord) (ws : List PairWord) :
    (proquint r (w :: ws)).drop 6 = proquint r ws := by
  cases ws <;> rfl

theorem proquint_length (r : Roms) (ws : List PairWord) : (proquint r ws).length = 6 * ws.length - 1 := by
  induction ws with
  | nil => rfl
  | cons w ws ih =>
    cases ws with
    | nil => rfl
    | cons v ws =>
      rw [proquint_cons w (List.cons_ne_nil v ws), List.length_append, syllable_length, List.length_cons, ih]
      simp only [List.length_cons]
      omega

theorem proquint_eq_nil {r : Roms} {ws : List PairWord} : proquint r ws = [] ↔ ws = [] := by
  rw [← List.length_eq_zero_iff, proquint_length, ← List.length_eq_zero_iff]
  omega

/-- Two sequences of pair words with one string are equal: block by block, the syllables are. -/
theorem proquint_injective {r : Roms} (hr : r.legal) : Function.Injective (proquint r) := by
  intro vs
  induction vs with
  | nil => exact fun ws h => (proquint_eq_nil.mp h.symm).symm
  | cons v vs ih =>
    intro ws h
    cases ws with
    | nil => exact proquint_eq_nil.mp h
    | cons w ws =>
      have hsyl : syllable r v = syllable r w := by
        rw [← take_proquint_cons r v vs, h, take_proquint_cons]
      have htail : proquint r vs = proquint r ws := by
        rw [← drop_proquint_cons r v vs, h, drop_proquint_cons]
      rw [syllablesAreInjective r v w hr hsyl, ih htail]

theorem proquint_append (r : Roms) {vs ws : List PairWord} (hvs : vs ≠ []) (hws : ws ≠ []) :
    proquint r (vs ++ ws) = proquint r vs ++ Config.hyphenCode :: proquint r ws := by
  induction vs with
  | nil => exact absurd rfl hvs
  | cons v vs ih =>
    cases vs with
    | nil => exact proquint_cons v hws
    | cons u vs =>
      have hne := List.cons_ne_nil u vs
      rw [List.cons_append, proquint_cons v (by simp), ih hne, proquint_cons v hne, List.append_assoc, List.cons_append]

theorem drop_proquint (r : Roms) (ws : List PairWord) (k : Nat) :
    (proquint r ws).drop (6 * k) = proquint r (ws.drop k) := by
  induction k generalizing ws with
  | zero => rfl
  | succ k ih =>
    cases ws with
    | nil => rw [List.drop_nil]; exact List.drop_nil
    | cons w ws =>
      rw [List.drop_succ_cons, ← ih ws, ← drop_proquint_cons r w ws, List.drop_drop]
      congr 1
      omega

/-- Syllable k takes the positions 6k to 6k + 4 (R87). -/
theorem proquint_getElem?_syllable {r : Roms} {ws : List PairWord} {k j : Nat} {w : PairWord} (hw : ws[k]? = some w)
    (hj : j < 5) : (proquint r ws)[6 * k + j]? = (syllable r w)[j]? := by
  obtain ⟨hk, rfl⟩ := List.getElem?_eq_some_iff.mp hw
  rw [← List.getElem?_drop, drop_proquint, List.drop_eq_getElem_cons hk, ← List.getElem?_take_of_lt hj,
    take_proquint_cons]

/-- Position 6k + 5 holds the hyphen for every syllable but the last (R87). -/
theorem proquint_getElem?_hyphen {r : Roms} {ws : List PairWord} {k : Nat} (hk : k + 1 < ws.length) :
    (proquint r ws)[6 * k + 5]? = some Config.hyphenCode := by
  rw [← List.getElem?_drop, drop_proquint, List.drop_eq_getElem_cons (Nat.lt_of_succ_lt hk), proquint_cons _ ?_]
  · rfl
  · simpa using hk

/-! ## ENCODE (R85) -/

theorem encodeBytes_eq_some {r : Roms} {bs str : List Byte} :
    encodeBytes r bs = some str ↔ bs.length % 2 = 0 ∧ proquint r (pairWords bs) = str := by
  simp [encodeBytes]

/-- Settles O34: the string determines the pair words, and an even number of bytes is what its pair words hold. -/
theorem encodingIsInjective : Obligations.EncodingIsInjective := by
  unfold Obligations.EncodingIsInjective
  intro r as bs str hr ha hb
  obtain ⟨haEven, ha⟩ := encodeBytes_eq_some.mp ha
  obtain ⟨hbEven, hb⟩ := encodeBytes_eq_some.mp hb
  have hwords : pairWords as = pairWords bs := proquint_injective hr (ha.trans hb.symm)
  rw [← wordBytes_pairWords haEven, hwords, wordBytes_pairWords hbEven]

/-- Settles O35: a syllable and a hyphen for each of the n/2 pairs, but no last hyphen. -/
theorem lengthLaw : Obligations.LengthLaw := by
  unfold Obligations.LengthLaw
  refine fun r bs => ⟨fun hodd => ?_, fun heven => ⟨_, encodeBytes_eq_some.mpr ⟨heven, rfl⟩, ?_⟩⟩
  · exact if_neg (by omega)
  · rw [proquint_length, pairWords_length]
    omega

/-- Settles O36: position 6k + j lies in block k of the string, and pair k is the bytes 2k and 2k + 1. -/
theorem positionLaw : Obligations.PositionLaw := by
  unfold Obligations.PositionLaw
  intro r bs str p h hp
  obtain ⟨heven, rfl⟩ := encodeBytes_eq_some.mp h
  rw [proquint_length, pairWords_length] at hp
  constructor
  · intro hmod
    have hpair : 2 * (p / 6) + 1 < bs.length := by omega
    refine ⟨_, _, List.getElem?_eq_getElem (by omega), List.getElem?_eq_getElem hpair, ?_⟩
    have hchar := proquint_getElem?_syllable (r := r) (pairWords_getElem? hpair) hmod
    rwa [Nat.div_add_mod] at hchar
  · intro hmod
    have hhyphen : (proquint r (pairWords bs))[6 * (p / 6) + 5]? = some Config.hyphenCode :=
      proquint_getElem?_hyphen (by rw [pairWords_length]; omega)
    rwa [← hmod, Nat.div_add_mod] at hhyphen

/-- Settles O37: the position law, and SYLLABLE's tables by character. -/
theorem syllablePattern : Obligations.SyllablePattern := by
  unfold Obligations.SyllablePattern
  intro r bs str p h hp
  obtain ⟨hsyl, hhyphen⟩ := positionLaw r bs str p h hp
  refine ⟨fun hmod => ?_, fun hmod => ?_, hhyphen⟩
  · obtain ⟨b0, b1, -, -, hchar⟩ := hsyl (by omega)
    rcases hmod with hmod | hmod | hmod <;> exact ⟨_, hchar.trans (by rw [hmod]; rfl)⟩
  · obtain ⟨b0, b1, -, -, hchar⟩ := hsyl (by omega)
    rcases hmod with hmod | hmod <;> exact ⟨_, hchar.trans (by rw [hmod]; rfl)⟩

/-- Settles O38: the pair words of the pieces stand one after the other, and join adds the hyphen between them. -/
theorem spliceLaw : Obligations.SpliceLaw := by
  unfold Obligations.SpliceLaw
  intro r as cs sa sc ha hc hsa hsc
  obtain ⟨haEven, rfl⟩ := encodeBytes_eq_some.mp hsa
  obtain ⟨hcEven, rfl⟩ := encodeBytes_eq_some.mp hsc
  refine encodeBytes_eq_some.mpr ⟨by rw [List.length_append]; omega, ?_⟩
  rw [pairWords_append cs haEven]
  exact proquint_append r (pairWords_ne_nil haEven ha) (pairWords_ne_nil hcEven hc)

/-- Settles O40: the two tables around any three configuration values give each string, which uses none of them. -/
theorem knownVectorsEncode : Obligations.KnownVectorsEncode := by
  unfold Obligations.KnownVectorsEncode
  intro r ⟨_, htables⟩
  rw [htables]
  exact ⟨rfl, rfl, rfl, rfl⟩

end Sys2Proof.Machine

namespace Sys2Proof.Machine

variable {s : State}

/-! ## Commands as the IN handshake takes or holds them (R97 to R100) -/

theorem exec_start_ready (n : Length) (hr : s.wasReset = true) (hready : s.inReady = true) :
    exec (.start n) s = .next (startEffect n s) := onAccept_ready hr (inReady_eq_true.mp hready)

theorem exec_pair_ready (b0 b1 : Byte) (hr : s.wasReset = true) (hready : s.inReady = true) :
    exec (.pair b0 b1) s = .next (pairEffect (pairWord b0 b1) s) := onAccept_ready hr (inReady_eq_true.mp hready)

theorem exec_illegalOp00_ready (d : BitVec 16) (hr : s.wasReset = true) (hready : s.inReady = true) :
    exec (.illegalOp00 d) s = .next (raise .illegalCommand 0 s) := onAccept_ready hr (inReady_eq_true.mp hready)

theorem exec_illegalOp11_ready (d : BitVec 16) (hr : s.wasReset = true) (hready : s.inReady = true) :
    exec (.illegalOp11 d) s = .next (raise .illegalCommand 0 s) := onAccept_ready hr (inReady_eq_true.mp hready)

theorem startEffect_active (n : Length) (hm : s.mode = .active) : startEffect n s = raise .protocolError 0 s :=
  if_pos hm

theorem startEffect_odd {n : Length} (hm : s.mode ≠ .active) (hn : n.toNat % 2 = 1) :
    startEffect n s = raise .invalidInputLength n s := by simp [startEffect, hm, oddLength, hn]

theorem startEffect_even {n : Length} (hm : s.mode ≠ .active) (hn : n.toNat % 2 = 0) :
    startEffect n s = beginConversion n s := by simp [startEffect, hm, oddLength, hn]

theorem pairCount_eq_ofNat (n : Length) : pairCount n = BitVec.ofNat 15 (n.toNat / 2) := by
  rw [← pairCount_toNat, BitVec.ofNat_toNat, BitVec.setWidth_eq]

/-- The conversion that an even START begins, with N's two uses as numbers (R98). -/
theorem beginConversion_eq (n : Length) (s : State) :
    beginConversion n s = { s with
      mode := .active, first := true, remain := BitVec.ofNat 15 (n.toNat / 2), errCode := .noError, errLen := 0,
      slot := if n.toNat = 0 then 7 else 6 } := by
  have hslot : (if n = 0 then 7 else 6 : BitVec 3) = if n.toNat = 0 then 7 else 6 :=
    if_congr BitVec.toNat_eq rfl rfl
  rw [← pairCount_eq_ofNat, ← hslot]
  rfl

/-- Settles O16: the state is checked before the parity, and an even N begins a conversion. -/
theorem startFollowsItsRule : Obligations.StartFollowsItsRule := by
  unfold Obligations.StartFollowsItsRule
  intro n s hr hready
  rw [exec_start_ready n hr hready]
  refine ⟨rfl, fun hm => ?_, fun hm hn => ?_, fun hm hn => ?_⟩
  · rw [startEffect_active n hm]
    rfl
  · rw [startEffect_odd hm hn]
    rfl
  · rw [startEffect_even hm hn, beginConversion_eq]

theorem pairEffect_active (w : PairWord) (hm : s.mode = .active) : pairEffect w s = loadPair w s := if_pos hm

theorem pairEffect_outside (w : PairWord) (hm : s.mode ≠ .active) : pairEffect w s = raise .protocolError 0 s :=
  if_neg hm

/-- With a pair expected, REMAIN counts down without wrapping (R99). -/
theorem pairCount_pred {r : PairCount} (h : 1 ≤ r.toNat) : r - 1 = BitVec.ofNat 15 (r.toNat - 1) := by
  bv_omega

/-- Settles O17: in ACTIVE the pair is loaded, outside ACTIVE it raises. -/
theorem pairFollowsItsRule : Obligations.PairFollowsItsRule := by
  unfold Obligations.PairFollowsItsRule
  intro b0 b1 s hr hready
  rw [exec_pair_ready b0 b1 hr hready]
  refine ⟨rfl, fun hm hexpected => ?_, fun hm => ?_⟩
  · rw [pairEffect_active _ hm, ← pairCount_pred hexpected]
    rfl
  · rw [pairEffect_outside _ hm]
    rfl

/-- Settles O18: the effect of both rows is the error entry, which does not look at STATE or DATA. -/
theorem illegalWordsAlwaysRaise : Obligations.IllegalWordsAlwaysRaise := by
  unfold Obligations.IllegalWordsAlwaysRaise
  exact fun d s hr hready => ⟨rfl, rfl, exec_illegalOp00_ready d hr hready, exec_illegalOp11_ready d hr hready⟩

/-- Settles O19: the IN handshake holds every command, and the host's turn leaves the word on the port. -/
theorem commandsAreHeldWhileATokenIsPending : Obligations.CommandsAreHeldWhileATokenIsPending := by
  unfold Obligations.CommandsAreHeldWhileATokenIsPending
  intro s hr hbusy
  have hp := inReady_eq_false.mp hbusy
  have hheld (after : State) : onAccept s after = .next s := onAccept_held hr hp
  exact ⟨fun _ => hheld _, fun _ _ => hheld _, fun _ => ⟨hheld _, hheld _⟩,
    fun _ ht => step_accept_held ht (.inr ⟨hr, hp⟩)⟩

/-! ## READ_STATUS (R101) -/

theorem statusBit_eq_ite (b : Bool) : statusBit b = if b then 1#32 else 0#32 := by cases b <;> rfl

/-- Settles O20: the read is of STATUS, whose two handshake bits are 1 or 0. -/
theorem statusReadGivesTheStatusWord : Obligations.StatusReadGivesTheStatusWord := by
  unfold Obligations.StatusReadGivesTheStatusWord
  refine fun s => ⟨fun hr => ?_, fun hr => ?_⟩
  · rw [readStatus, if_pos hr, State.status, statusBit_eq_ite, statusBit_eq_ite]
  · rw [readStatus, if_neg (by simp [hr])]

/-! ## The step of an offered command (R97) -/

/-- Settles O55: both sides are the effect of the decoded command, the turn and the word taken. -/
theorem stepRunsTheOfferedCommand : Obligations.StepRunsTheOfferedCommand := by
  unfold Obligations.StepRunsTheOfferedCommand
  intro s x i rest ts hr hready ht hq hi
  have hp := inReady_eq_true.mp hready
  obtain rfl : decodeCmd x = i := by simpa [decode] using hi
  refine ⟨executes_accept ht hq hr hp, ?_⟩
  rw [step_accept ht hq hr hp, exec_decodeCmd]
  exact (onAccept_ready (s := { s with turns := ts, inQ := rest }) hr hp).symm

end Sys2Proof.Machine

namespace Sys2Proof.Machine

variable {s : State}

/-! ## The instruction of the pending token (R107) -/

theorem pendingInstr_hyphen (hm : s.mode = .active) (hk : s.slot = 0) : pendingInstr s = some .hyphen := by
  have hp : s.pending = true := pending_eq_true.mpr ⟨hm, by rw [hk]; decide⟩
  rw [pendingInstr, if_pos hp, if_pos hk]

theorem pendingInstr_endTok (hm : s.mode = .active) (hk : s.slot = 7) : pendingInstr s = some .endTok := by
  have hp : s.pending = true := pending_eq_true.mpr ⟨hm, by rw [hk]; decide⟩
  rw [pendingInstr, if_pos hp, if_neg (by rw [hk]; decide), if_pos hk]

/-- A character the multiplexer selects is pending: it selects one in the slots 1 to 5 only. -/
theorem pendingInstr_char {c : Byte} (hm : s.mode = .active) (hc : charmux s.roms s.word s.slot = some c) :
    pendingInstr s = some (.char c) := by
  obtain ⟨h1, h5⟩ : 1 ≤ s.slot ∧ s.slot ≤ 5 := by simpa [hc] using charmux_isSome s.roms s.word s.slot
  have hp : s.pending = true := pending_eq_true.mpr ⟨hm, by bv_omega⟩
  rw [pendingInstr, if_pos hp, if_neg (by bv_omega), if_neg (by bv_omega), hc, Option.map_some]

/-! ## Placing a transfer (log entry 6) -/

@[simp] theorem ensureReset_wasReset (s : State) : (ensureReset s).wasReset = true := by
  unfold ensureReset
  split
  · assumption
  · rfl

@[simp] theorem ensureReset_roms (s : State) : (ensureReset s).roms = s.roms := by
  unfold ensureReset
  split <;> rfl

@[simp] theorem placeSlot_wasReset (k : BitVec 3) (s : State) : (placeSlot k s).wasReset = true :=
  ensureReset_wasReset s

@[simp] theorem placeSlot_roms (k : BitVec 3) (s : State) : (placeSlot k s).roms = s.roms := ensureReset_roms s

/-- A placed command is accepted next: the host moves, a RESET has happened and nothing is pending. -/
theorem executes_placeCommand (x : CmdWord) (s : State) : (placeCommand x s).executes = some (decodeCmd x) := by
  unfold placeCommand
  split
  next => exact executes_accept rfl rfl (ensureReset_wasReset s) rfl
  next hp => exact executes_accept rfl rfl (ensureReset_wasReset s) (Bool.eq_false_of_not_eq_true hp)

theorem executes_placeHyphen (s : State) : (placeSlot 0 s).executes = some .hyphen :=
  (executes_emit (s := placeSlot 0 s) rfl (placeSlot_wasReset 0 s)).trans (pendingInstr_hyphen rfl rfl)

theorem executes_placeEnd (s : State) : (placeSlot 7 s).executes = some .endTok :=
  (executes_emit (s := placeSlot 7 s) rfl (placeSlot_wasReset 7 s)).trans (pendingInstr_endTok rfl rfl)

/-- A placed slot is handed out as the character that the multiplexer selects there, whatever WORD and the ROMs are. -/
theorem executes_placeSlot_char {k : BitVec 3} {w : PairWord} {r : Roms} {c : Byte} (s : State)
    (hc : charmux r w k = some c) : ({ placeSlot k s with word := w, roms := r }).executes = some (.char c) :=
  (executes_emit (s := { placeSlot k s with word := w, roms := r }) rfl (placeSlot_wasReset k s)).trans
    (pendingInstr_char rfl hc)

/-- Slot 1 shows the consonant of the first field (R79, R83). -/
theorem charmux_one_append (r : Roms) (i : ConsIndex) (low : BitVec 12) :
    charmux r (i ++ low) 1 = some (cons r i) := by
  have hf : (slice (i ++ low)).f1 = i := extract_high i low
  conv_rhs => rw [← hf]
  rfl

/-- Slot 2 shows the vowel of the second field (R79, R83). -/
theorem charmux_two_append (r : Roms) (high : BitVec 4) (j : VowIndex) (low : BitVec 10) :
    charmux r (high ++ j ++ low) 2 = some (vow r j) := by
  have hf : (slice (high ++ j ++ low)).f2 = j :=
    (BitVec.extractLsb'_append_eq_of_le (Nat.le_refl 10)).trans (extract_low high j)
  conv_rhs => rw [← hf]
  rfl

/-- The entry that a search of a table finds is the character searched for. -/
theorem getElem_of_findIdx? {n i : Nat} {v : Vector Byte n} {c : Byte} (h : v.toList.findIdx? (· == c) = some i) :
    ∃ hi : i < n, v[i] = c := by
  obtain ⟨hi, hc, -⟩ := List.findIdx?_eq_some_iff_getElem.mp h
  exact ⟨by simpa using hi, by simpa using hc⟩

/-- ROM_C9 set to a character is what index 9 shows (R7). -/
theorem cons_configured (r : Roms) (c : Byte) : cons { r with romC := r.romC.set 9 c } 9 = c := by simp [cons]

/-- A placed character is handed out next: from ROM_C in slot 1, from ROM_V in slot 2, or as ROM_C9 (log entry 9). -/
theorem executes_placeChar (c : Byte) (s : State) : (placeChar c s).executes = some (.char c) := by
  unfold placeChar
  split
  next i hfind =>
    obtain ⟨hi, hc⟩ := getElem_of_findIdx? hfind
    have hcons : cons s.roms (BitVec.ofNat 4 i) = c := by simpa [cons, Nat.mod_eq_of_lt hi] using hc
    exact executes_placeSlot_char s (by rw [placeSlot_roms, charmux_one_append, hcons])
  next =>
    split
    next j hfind =>
      obtain ⟨hj, hc⟩ := getElem_of_findIdx? hfind
      have hvow : vow s.roms (BitVec.ofNat 2 j) = c := by simpa [vow, Nat.mod_eq_of_lt hj] using hc
      exact executes_placeSlot_char s (by rw [placeSlot_roms, charmux_two_append, hvow])
    next =>
      exact executes_placeSlot_char s ((charmux_one_append _ 9 0).trans (congrArg some (cons_configured s.roms c)))

/-- Whatever instruction is placed is the next one, the character that stands in no table too. -/
theorem executes_placeInstr (i : Instr) (s : State) : (placeInstr i s).executes = some i := by
  cases i with
  | start n => rw [placeInstr, executes_placeCommand, decodeCmd_of_op01 (opField_cmdWord _ n), dataField_cmdWord]
  | pair b0 b1 =>
    rw [placeInstr, executes_placeCommand, decodeCmd_of_op10 (opField_cmdWord _ _), dataField_cmdWord,
      highByte_append, lowByte_append]
  | illegalOp00 d => rw [placeInstr, executes_placeCommand, decodeCmd_of_op00 (opField_cmdWord _ d), dataField_cmdWord]
  | illegalOp11 d => rw [placeInstr, executes_placeCommand, decodeCmd_of_op11 (opField_cmdWord _ d), dataField_cmdWord]
  | hyphen => exact executes_placeHyphen s
  | char c => exact executes_placeChar c s
  | endTok => exact executes_placeEnd s

/-- Settles O57: a table word that decodes places its instruction, and every placed instruction is the next one. -/
theorem placedWordIsExecutedNext : Obligations.PlacedWordIsExecutedNext := by
  unfold Obligations.PlacedWordIsExecutedNext
  intro s nbits w i hi
  rw [State.withFetchWord, placeTableWord, hi]
  exact executes_placeInstr i s

end Sys2Proof.Machine

namespace Sys2Proof.Machine

variable {s t : State}

/-! ## The rules of the three tokens (R107 to R110) -/

theorem pending_of_slot {k : BitVec 3} (hm : s.mode = .active) (hk : s.slot = k) (h6 : k ≠ 6) : s.pending = true :=
  pending_eq_true.mpr ⟨hm, hk ▸ h6⟩

/-- Settles O21: in slot 0 the hyphen is due, and handing it out has its effect. -/
theorem hyphenFollowsItsRule : Obligations.HyphenFollowsItsRule := by
  unfold Obligations.HyphenFollowsItsRule
  intro s hr hm hk
  have hdue : (s.slot == 0) = true := beq_iff_eq.mpr hk
  refine ⟨rfl, ?_⟩
  rw [exec, execHyphen, hdue, onEmit_due hr (pending_of_slot hm hk (by decide))]
  rfl

/-- Settles O22: the character that the multiplexer selects in slot k is the k-th of the syllable. -/
theorem charFollowsItsRule : Obligations.CharFollowsItsRule := by
  unfold Obligations.CharFollowsItsRule
  intro s c hr hm h1 h5 hc
  have hmux : charmux s.roms s.word s.slot = some c := (charmux_eq_syllable s.roms s.word s.slot h1 h5).trans hc
  have hp : s.pending = true := pending_eq_true.mpr ⟨hm, fun h => absurd (h ▸ h5) (by decide)⟩
  refine ⟨rfl, ?_⟩
  rw [exec, execChar, hmux, beq_self_eq_true, onEmit_due hr hp]
  rfl

/-- Settles O23: in slot 7 END is due, and handing it out has its effect. -/
theorem endFollowsItsRule : Obligations.EndFollowsItsRule := by
  unfold Obligations.EndFollowsItsRule
  intro s hr hm hk
  have hdue : (s.slot == 7) = true := beq_iff_eq.mpr hk
  refine ⟨rfl, ?_⟩
  rw [exec, execEnd, hdue, onEmit_due hr (pending_of_slot hm hk (by decide))]
  rfl

/-- Settles O24: the OUT handshake hands out nothing that is not due. -/
theorem tokensNotPendingAreNotHandedOut : Obligations.TokensNotPendingAreNotHandedOut := by
  unfold Obligations.TokensNotPendingAreNotHandedOut
  exact fun s hr => ⟨fun h => onEmit_notDue hr (h.imp_right beq_false_of_ne),
    fun h => onEmit_notDue hr (h.imp_right beq_false_of_ne),
    fun c h => onEmit_notDue hr (h.imp_right beq_false_of_ne)⟩

/-- The pending token and its instruction are chosen alike by SLOT, so that the word of the one decodes to the other:
no table entry is the hyphen (R91, R107). -/
theorem pendingInstr_of_outToken {tok : Token} {i : Instr} (hlegal : s.roms.legal) (ht : s.outToken = some tok)
    (hi : decodeTok tok.word = .ok i) : pendingInstr s = some i := by
  unfold State.outToken at ht
  split at ht
  next hp =>
    have hm := (pending_eq_true.mp hp).1
    split at ht
    next hk =>
      cases ht
      cases hi
      exact pendingInstr_hyphen hm hk
    split at ht
    next hk =>
      cases ht
      cases hi
      exact pendingInstr_endTok hm hk
    obtain ⟨c, hc, rfl⟩ := Option.map_eq_some_iff.mp ht
    have hne : c ≠ Config.hyphenCode := by
      rcases charmux_mem_tables hc with ⟨j, rfl⟩ | ⟨j, rfl⟩
      · exact cons_ne_hyphen hlegal j
      · exact vow_ne_hyphen hlegal j
    rw [decodeTok_char, if_neg hne] at hi
    cases hi
    exact pendingInstr_char hm hc
  next => cases ht

/-- Settles O56: the consumer's turn runs the pending instruction, which is the pending token's. -/
theorem stepRunsThePendingToken : Obligations.StepRunsThePendingToken := by
  unfold Obligations.StepRunsThePendingToken
  intro s tok i ts hr hlegal ht htok hi
  have hp : pendingInstr s = some i := pendingInstr_of_outToken hlegal htok hi
  have hp' : pendingInstr { s with turns := ts } = some i := hp
  refine ⟨(executes_emit ht hr).trans hp, ?_⟩
  rw [step_turn ht, playTurn, emitTurn, if_pos hr, hp']

end Sys2Proof.Machine

namespace Sys2Proof.Machine

variable {s t : State}

/-! ## The tokens due: those still to leave for the commands accepted so far (R107 to R110) -/

/-- END is among the tokens due: it is pending, or it follows the last syllable (R109). -/
abbrev State.Closing (s : State) : Prop := s.slot = 7 ∨ s.remain = 0

/-- The tokens of the slots 0 to 5, in slot order: the hyphen and the five characters of WORD. -/
def slotTokens (r : Roms) (w : PairWord) : List Token := .char Config.hyphenCode :: syllableTokens r w

/-- What leaves if the consumer goes on taking and no further command is accepted. -/
def State.due (s : State) : List Token :=
  if s.pending then
    (slotTokens s.roms s.word).drop s.slot.toNat ++ if s.Closing then [.fin] else []
  else []

/-- The block once everything due has left, its two ports out of view. -/
def State.settled (s : State) : State :=
  { s with
    out := s.out ++ s.due, inQ := [], turns := []
    mode := if s.pending ∧ s.Closing then .idle else s.mode
    slot := if s.pending then 6 else s.slot
    first := if s.pending ∧ s.Closing then false else s.first }

@[simp] theorem settled_out (s : State) : s.settled.out = s.out ++ s.due := rfl
@[simp] theorem settled_roms (s : State) : s.settled.roms = s.roms := rfl

/-- The ports are out of view: neither the turns nor the words on IN matter. -/
@[simp] theorem settled_ports (ts : List Turn) (q : List CmdWord) :
    ({ s with turns := ts, inQ := q }).settled = s.settled := rfl

theorem due_of_not_pending (hp : s.pending = false) : s.due = [] := by simp [State.due, hp]

theorem due_of_pending (hp : s.pending = true) :
    s.due = (slotTokens s.roms s.word).drop s.slot.toNat ++ if s.Closing then [.fin] else [] := if_pos hp

/-- A hyphen, five characters and END at most. -/
theorem due_length_le_seven (s : State) : s.due.length ≤ 7 := by
  have hslots : (slotTokens s.roms s.word).length = 6 := rfl
  have hend : (if s.Closing then [Token.fin] else []).length ≤ 1 := by split <;> decide
  unfold State.due
  split
  · rw [List.length_append, List.length_drop, hslots]
    omega
  · exact Nat.zero_le 7

/-- With nothing pending, only the ports are put out of view. -/
theorem settled_of_not_pending (hp : s.pending = false) : s.settled = { s with inQ := [], turns := [] } := by
  simp [State.settled, hp, due_of_not_pending hp]

/-- Where END is not due, a conversion waits for its next PAIR when all has left. -/
theorem settled_of_pending_not_closing (hp : s.pending = true) (hc : ¬ s.Closing) :
    s.settled = { s with out := s.out ++ s.due, inQ := [], turns := [], slot := 6 } := by
  simp only [State.settled, hp, hc, and_false, if_false, if_true]

/-- Where END is due, the block is idle when all has left. -/
theorem settled_of_closing (hp : s.pending = true) (hc : s.Closing) :
    s.settled =
      { s with out := s.out ++ s.due, inQ := [], turns := [], mode := .idle, slot := 6, first := false } := by
  simp only [State.settled, hp, hc, and_true, if_true]

/-- The character of slot k, among the tokens of the slots. -/
theorem slotTokens_getElem?_slot {c : Byte} (h1 : 1 ≤ s.slot) (h5 : s.slot ≤ 5)
    (hc : charmux s.roms s.word s.slot = some c) :
    (slotTokens s.roms s.word)[s.slot.toNat]? = some (.char c) := by
  have hk : s.slot.toNat = (s.slot.toNat - 1) + 1 := by bv_omega
  rw [charmux_eq_syllable s.roms s.word s.slot h1 h5] at hc
  rw [hk, slotTokens, List.getElem?_cons_succ, syllableTokens, List.getElem?_map, hc, Option.map_some]

/-- `s` after the token `tok`, with slot `k` next. -/
def State.sent (tok : Token) (k : BitVec 3) (s : State) : State := { s with out := s.out ++ [tok], slot := k }

/-- Within the tokens due, taking one token leaves the others and the way to the settled block. -/
theorem settled_sent {tok : Token} {k : BitVec 3} (hp : s.pending = true) (hk : k ≠ 6)
    (hc : (s.sent tok k).Closing ↔ s.Closing)
    (htok : (slotTokens s.roms s.word).drop s.slot.toNat = tok :: (slotTokens s.roms s.word).drop k.toNat) :
    s.due = tok :: (s.sent tok k).due ∧ (s.sent tok k).settled = s.settled := by
  have hp' : (s.sent tok k).pending = true := pending_eq_true.mpr ⟨(pending_eq_true.mp hp).1, hk⟩
  have hdue : s.due = tok :: (s.sent tok k).due := by
    rw [due_of_pending hp, due_of_pending hp', htok, if_congr hc rfl rfl]
    rfl
  refine ⟨hdue, ?_⟩
  by_cases hcl : s.Closing
  · rw [settled_of_closing hp hcl, settled_of_closing hp' (hc.mpr hcl), hdue]
    simp [State.sent]
  · rw [settled_of_pending_not_closing hp hcl, settled_of_pending_not_closing hp' (hc.not.mpr hcl), hdue]
    simp [State.sent]

/-- The last token due before a further PAIR (R109) leaves the block settled. -/
theorem settled_sent_last {c : Byte} (hp : s.pending = true) (hk : s.slot = 5) (hr : s.remain ≠ 0)
    (hc : (slotTokens s.roms s.word)[5]? = some (.char c)) :
    s.due = .char c :: (s.sent (.char c) 6).due ∧ (s.sent (.char c) 6).settled = s.settled := by
  have hcl : ¬ s.Closing := not_or.mpr ⟨by simp [hk], hr⟩
  have hp' : (s.sent (.char c) 6).pending = false := pending_eq_false.mpr fun _ => rfl
  have hdue : s.due = [.char c] := by
    rw [due_of_pending hp, if_neg hcl, hk]
    simpa [slotTokens, syllableTokens, syllable] using hc
  refine ⟨by rw [hdue, due_of_not_pending hp'], ?_⟩
  rw [settled_of_not_pending hp', settled_of_pending_not_closing hp hcl, hdue]
  rfl

/-- Before slot 7, END is due only after the last syllable. -/
theorem closing_of_slot_ne_seven (h7 : s.slot ≠ 7) : s.Closing ↔ s.remain = 0 := or_iff_right h7

theorem hyphenEffect_due (hp : s.pending = true) (hk : s.slot = 0) :
    s.due = .char Config.hyphenCode :: (hyphenEffect s).due ∧ (hyphenEffect s).settled = s.settled := by
  have hc : (hyphenEffect s).Closing ↔ s.Closing :=
    (closing_of_slot_ne_seven (s := hyphenEffect s) (by simp)).trans
      (closing_of_slot_ne_seven (s := s) (by simp [hk])).symm
  exact settled_sent (k := 1) hp (by decide) hc (by rw [hk]; rfl)

theorem charEffect_due {c : Byte} (hp : s.pending = true) (h1 : 1 ≤ s.slot) (h5 : s.slot ≤ 5)
    (hc : charmux s.roms s.word s.slot = some c) :
    s.due = .char c :: (charEffect c s).due ∧ (charEffect c s).settled = s.settled := by
  have htok := slotTokens_getElem?_slot h1 h5 hc
  have hdrop : (slotTokens s.roms s.word).drop s.slot.toNat =
      .char c :: (slotTokens s.roms s.word).drop (s.slot.toNat + 1) := by
    rw [List.drop_eq_getElem?_toList_append, htok]
    rfl
  have h7 : s.slot ≠ 7 := fun h => absurd (h ▸ h5) (by decide)
  change s.due = .char c :: (s.sent (.char c) (slotAfterChar s)).due ∧
    (s.sent (.char c) (slotAfterChar s)).settled = s.settled
  rcases slotAfterChar_cases h5 with ⟨hle, hk⟩ | ⟨hlast, hr, hk⟩ | ⟨hlast, hr, hk⟩
  · have hne (k : BitVec 3) (h : ¬ k ≤ 5) : slotAfterChar s ≠ k := fun he => h (he ▸ hle)
    exact settled_sent hp (hne 6 (by decide))
      ((closing_of_slot_ne_seven (hne 7 (by decide))).trans (closing_of_slot_ne_seven h7).symm) (hk ▸ hdrop)
  · rw [hk]
    exact settled_sent hp (by decide) ⟨fun _ => .inr hr, fun _ => .inl rfl⟩ (by rw [hdrop, hlast]; rfl)
  · rw [hk]
    exact settled_sent_last hp hlast hr (by rw [hlast] at htok; exact htok)

theorem endEffect_due (hp : s.pending = true) (hk : s.slot = 7) :
    s.due = .fin :: (endEffect s).due ∧ (endEffect s).settled = s.settled := by
  have hp' : (endEffect s).pending = false := rfl
  have hdue : s.due = [.fin] := by
    rw [due_of_pending hp, if_pos (.inl hk), hk]
    rfl
  refine ⟨by rw [hdue, due_of_not_pending hp'], ?_⟩
  rw [settled_of_not_pending hp', settled_of_closing hp (.inl hk), hdue]
  rfl

/-- What the consumer takes is the pending token, it is the first of those due, and what is left after it leads to the
same settled block. -/
theorem emitEffect_due (hp : s.pending = true) (h : EmitEffect s t) :
    ∃ tok, s.outToken = some tok ∧ t.out = s.out ++ [tok] ∧ s.due = tok :: t.due ∧ t.settled = s.settled := by
  obtain ⟨-, -, -, -, hzero, hseven, hchar⟩ := handshakeSignals s
  rcases h with ⟨hk, rfl⟩ | ⟨h1, h5, c, hc, rfl⟩ | ⟨hk, rfl⟩
  · exact ⟨_, hzero hp hk, rfl, hyphenEffect_due hp hk⟩
  · have htok : s.outToken = some (.char c) := by
      rw [hchar hp h1 h5, ← charmux_eq_syllable s.roms s.word s.slot h1 h5, hc, Option.map_some]
    exact ⟨_, htok, rfl, charEffect_due hp h1 h5 hc⟩
  · exact ⟨_, hseven hp hk, rfl, endEffect_due hp hk⟩

theorem emitEffect_turns (h : EmitEffect s t) : t.turns = s.turns := by
  rcases h with ⟨-, rfl⟩ | ⟨-, -, c, -, rfl⟩ | ⟨-, rfl⟩ <;> rfl

theorem emitEffect_wasReset (h : EmitEffect s t) : t.wasReset = s.wasReset := by
  rcases h with ⟨-, rfl⟩ | ⟨-, -, c, -, rfl⟩ | ⟨-, rfl⟩ <;> rfl

/-- Settles O25: of all that a step can do, only the consumer's taking of the pending token writes OUT. -/
theorem tokensLeaveOnlyInActive : Obligations.TokensLeaveOnlyInActive := by
  unfold Obligations.TokensLeaveOnlyInActive
  intro s t h hne
  rcases step_cases h with ⟨-, rfl⟩ | ⟨u, ts, ht, hu⟩
  · exact absurd rfl hne
  rcases hu with ⟨-, -, rfl⟩ | ⟨-, x, rest, -, -, -, rfl⟩ | ⟨-, -, -, rfl⟩ | ⟨rfl, -, hp, he⟩ | ⟨-, rfl⟩ | ⟨-, rfl⟩
  · exact absurd rfl hne
  · exact absurd (commandStep_out (commandEffect_commandStep x _)) hne
  · exact absurd rfl hne
  · obtain ⟨tok, htok, hout, -⟩ := emitEffect_due (s := { s with turns := ts }) hp he
    exact ⟨(pending_eq_true.mp hp).1, ts, tok, ht, htok, hout⟩
  · exact absurd rfl hne
  · exact absurd rfl hne

/-- Something is due exactly while a token is pending. -/
theorem due_eq_nil (hr : s.wasReset = true) : s.due = [] ↔ s.pending = false := by
  refine ⟨fun h => ?_, due_of_not_pending⟩
  by_contra hp
  have hp : s.pending = true := by simpa using hp
  obtain ⟨-, t, -, -, he⟩ := exec_pending hr hp
  obtain ⟨tok, -, -, hdue, -⟩ := emitEffect_due hp he
  exact absurd (h.symm.trans hdue) (List.cons_ne_nil _ _).symm

/-- The consumer's turn hands out the first token due, if there is one. -/
theorem step_emit_due {ts : List Turn} (ht : s.turns = .emit :: ts) (hr : s.wasReset = true) :
    ∃ t, step s = .next t ∧ t.turns = ts ∧ t.inQ = s.inQ ∧ t.wasReset = true ∧ t.due = s.due.tail ∧
      t.settled = s.settled := by
  cases hp : s.pending with
  | false =>
    have hdue := due_of_not_pending hp
    exact ⟨_, step_emit_idle ht hr hp, rfl, rfl, hr, hdue ▸ hdue, rfl⟩
  | true =>
    obtain ⟨t, h, he⟩ := step_emit ht hr hp
    obtain ⟨tok, -, -, hdue, hset⟩ := emitEffect_due (s := { s with turns := ts }) hp he
    exact ⟨t, h, emitEffect_turns he, emitEffect_inQ (s := { s with turns := ts }) he,
      (emitEffect_wasReset he).trans hr, (congrArg List.tail hdue).symm, hset⟩

/-- As many takings as tokens are due, or more, hand out exactly those. -/
theorem runsTo_takings {k : Nat} {ts : List Turn} (hr : s.wasReset = true)
    (ht : s.turns = List.replicate k .emit ++ ts) (hk : s.due.length ≤ k) :
    ∃ t, runsTo k s t ∧ t.pending = false ∧ t.inQ = s.inQ ∧ t.turns = ts ∧ t.out = s.out ++ s.due := by
  induction k generalizing s with
  | zero =>
    have hdue : s.due = [] := List.length_eq_zero_iff.mp (Nat.le_zero.mp hk)
    exact ⟨s, rfl, (due_eq_nil hr).mp hdue, rfl, ht, by rw [hdue, List.append_nil]⟩
  | succ k ih =>
    rw [List.replicate_succ, List.cons_append] at ht
    obtain ⟨u, hu, hut, huq, hur, hdue, hset⟩ := step_emit_due ht hr
    have hlen : u.due.length ≤ k := by rw [hdue, List.length_tail]; omega
    obtain ⟨t, hrun, hp, hq, hts, hout⟩ := ih hur hut hlen
    exact ⟨t, runsTo_succ.mpr ⟨u, hu, hrun⟩, hp, hq.trans huq, hts, hout.trans (congrArg State.out hset)⟩

/-! ## The tokens that one command causes (R113) -/

/-- A command reads neither the turns nor the other words on IN, and leaves both. -/
theorem commandEffect_ports (i : Instr) (s : State) (ts : List Turn) (q : List CmdWord) :
    commandEffect i { s with turns := ts, inQ := q } = { commandEffect i s with turns := ts, inQ := q } := by
  cases i with
  | start n =>
    simp only [commandEffect, startEffect]
    split
    · rfl
    · split <;> rfl
  | pair b0 b1 =>
    simp only [commandEffect, pairEffect]
    split <;> rfl
  | illegalOp00 | illegalOp11 | hyphen | char | endTok => rfl

/-- The host's turn while nothing is pending: the word on the port has its effect on the block. -/
theorem step_accept_effect {x : CmdWord} {rest : List CmdWord} {ts : List Turn} (ht : s.turns = .accept :: ts)
    (hq : s.inQ = x :: rest) (hr : s.wasReset = true) (hp : s.pending = false) :
    step s = .next { commandEffect (decodeCmd x) s with turns := ts, inQ := rest } :=
  (step_accept ht hq hr hp).trans (congrArg _ (commandEffect_ports _ s ts rest))

theorem commandStep_wasReset {i : Instr} (h : CommandStep s i t) : t.wasReset = s.wasReset := by cases h <;> rfl

/-- A command is accepted and the tokens due for it are taken. -/
theorem runsTo_command_takings {x : CmdWord} {rest : List CmdWord} {k : Nat} {ts : List Turn}
    (hr : s.wasReset = true) (hp : s.pending = false) (hq : s.inQ = x :: rest)
    (ht : s.turns = .accept :: (List.replicate k .emit ++ ts)) (hk : (commandEffect (decodeCmd x) s).due.length ≤ k) :
    ∃ t, runsTo (k + 1) s t ∧ t.pending = false ∧ t.inQ = rest ∧ t.turns = ts ∧
      t.out = s.out ++ (commandEffect (decodeCmd x) s).due := by
  have hc := commandEffect_commandStep x s
  have hout' : (commandEffect (decodeCmd x) s).out = s.out := commandStep_out hc
  obtain ⟨t, hrun, hpt, htq, hts, hout⟩ :=
    runsTo_takings (s := { commandEffect (decodeCmd x) s with turns := List.replicate k .emit ++ ts, inQ := rest })
      ((commandStep_wasReset hc).trans hr) rfl hk
  exact ⟨t, runsTo_succ.mpr ⟨_, step_accept_effect ht hq hr hp, hrun⟩, hpt, htq, hts,
    hout.trans (congrArg (· ++ _) hout')⟩

/-- The word of an even START, outside a conversion. -/
theorem commandEffect_startWord {n : Length} (hm : s.mode ≠ .active) (hn : n.toNat % 2 = 0) :
    commandEffect (decodeCmd (cmdWord 0b01#2 n)) s = beginConversion n s := by
  rw [decodeCmd_of_op01 (opField_cmdWord _ n), dataField_cmdWord]
  exact startEffect_even hm hn

/-- The word of a PAIR, in a conversion. -/
theorem commandEffect_pairWord (w : PairWord) (hm : s.mode = .active) :
    commandEffect (decodeCmd (cmdWord 0b10#2 w)) s = loadPair w s := by
  rw [decodeCmd_of_op10 (opField_cmdWord _ w), dataField_cmdWord, commandEffect, pairWord, append_bytes,
    pairEffect_active w hm]

theorem due_beginConversion (n : Length) (s : State) :
    (beginConversion n s).due = if n = 0 then [.fin] else [] := by
  by_cases hn : n = 0
  · subst hn
    rfl
  · rw [if_neg hn]
    exact due_of_not_pending (pending_eq_false.mpr fun _ => if_neg hn)

theorem pending_loadPair (w : PairWord) (hm : s.mode = .active) : (loadPair w s).pending = true :=
  pending_eq_true.mpr ⟨hm, fun h => absurd (h ▸ loadPair_slot_le_one w s) (by decide)⟩

theorem closing_loadPair (w : PairWord) (s : State) : (loadPair w s).Closing ↔ s.remain = 1 := by
  have h7 : (loadPair w s).slot ≠ 7 := fun h => absurd (h ▸ loadPair_slot_le_one w s) (by decide)
  rw [closing_of_slot_ne_seven h7, loadPair_remain]
  bv_omega

theorem due_loadPair (w : PairWord) (hm : s.mode = .active) :
    (loadPair w s).due = (if s.first = true then [] else [.char Config.hyphenCode]) ++
      (syllableTokens s.roms w ++ if s.remain = 1 then [.fin] else []) := by
  rw [due_of_pending (pending_loadPair w hm), if_congr (closing_loadPair w s) rfl rfl, loadPair_slot]
  cases s.first <;> rfl

/-- Settles O27: the command's tokens are those due once it is accepted, and there are at most seven of them. -/
theorem tokensOfOneCommand : Obligations.TokensOfOneCommand := by
  unfold Obligations.TokensOfOneCommand
  constructor
  · intro s n rest ts hr hm hn hq ht
    have hdue : (commandEffect (decodeCmd (cmdWord 0b01#2 n)) s).due = if n.toNat = 0 then [.fin] else [] := by
      rw [commandEffect_startWord hm hn, due_beginConversion, if_congr BitVec.toNat_eq rfl rfl]
      rfl
    rw [← hdue]
    exact runsTo_command_takings (k := 1) hr (pending_eq_false.mpr fun h => absurd h hm) hq ht
      (by rw [hdue]; split <;> decide)
  · intro s b0 b1 rest ts hr hm h6 _ hq ht
    have hdue : (commandEffect (decodeCmd (cmdWord 0b10#2 (b0 ++ b1))) s).due =
        (if s.first = true then [] else [.char 0x2D]) ++
          (syllableTokens s.roms (b0 ++ b1) ++ if s.remain = 1 then [.fin] else []) := by
      rw [commandEffect_pairWord _ hm, due_loadPair _ hm]
      rfl
    rw [List.append_assoc, List.append_assoc, ← hdue]
    exact runsTo_command_takings (k := 7) hr (pending_eq_false.mpr fun _ => h6) hq ht (due_length_le_seven _)

end Sys2Proof.Machine

namespace Sys2Proof.Machine

variable {s t : State}

/-! ## The stream is fixed by the words accepted (R115) -/

/-- The settled block after one more word. -/
def takeWord (d : State) (x : CmdWord) : State := (commandEffect (decodeCmd x) d).settled

theorem takeWord_out_prefix (d : State) (x : CmdWord) : d.out <+: (takeWord d x).out := by
  have hout : (commandEffect (decodeCmd x) d).out = d.out := commandStep_out (commandEffect_commandStep x d)
  exact ⟨_, congrArg (· ++ _) hout.symm⟩

/-- A settled block takes a word as the block it comes from does, if nothing is pending there. -/
theorem takeWord_settled (x : CmdWord) (hp : s.pending = false) :
    takeWord s.settled x = (commandEffect (decodeCmd x) s).settled := by
  rw [takeWord, settled_of_not_pending hp, commandEffect_ports, settled_ports]

theorem foldl_takeWord_out_prefix (xs : List CmdWord) (d : State) : d.out <+: (xs.foldl takeWord d).out := by
  induction xs generalizing d with
  | nil => exact List.prefix_rfl
  | cons x xs ih => exact (takeWord_out_prefix d x).trans (ih _)

/-- More words give a longer stream. -/
theorem foldl_takeWord_out_mono {xs ys : List CmdWord} (h : xs <+: ys) (d : State) :
    (xs.foldl takeWord d).out <+: (ys.foldl takeWord d).out := by
  obtain ⟨zs, rfl⟩ := h
  rw [List.foldl_append]
  exact foldl_takeWord_out_prefix zs _

/-- The words `xs` have been accepted on the way from `s` to `t`, and no other: they alone fix what the block settles
to, and what has left stays. -/
structure Accepted (xs : List CmdWord) (s t : State) : Prop where
  words : s.inQ = xs ++ t.inQ
  settled : t.settled = xs.foldl takeWord s.settled
  out : s.out <+: t.out

theorem Accepted.none (hq : t.inQ = s.inQ) (hs : t.settled = s.settled) (hout : s.out <+: t.out) :
    Accepted [] s t := ⟨hq.symm, hs, hout⟩

theorem Accepted.trans {xs ys : List CmdWord} {u : State} (h : Accepted xs s u) (h' : Accepted ys u t) :
    Accepted (xs ++ ys) s t where
  words := by rw [h.words, h'.words, List.append_assoc]
  settled := by rw [h'.settled, h.settled, List.foldl_append]
  out := h.out.trans h'.out

/-- What has left is a part of the stream that the accepted words fix. -/
theorem Accepted.out_prefix {xs : List CmdWord} (h : Accepted xs s t) :
    t.out <+: (xs.foldl takeWord s.settled).out := h.settled ▸ List.prefix_append t.out t.due

/-- A step of the host's offer or the consumer's taking accepts one word or none. -/
theorem accepted_step (htr : ∀ u ∈ s.turns.head?, u = .accept ∨ u = .emit) (h : step s = .next t) :
    ∃ xs, Accepted xs s t := by
  rcases step_cases h with ⟨-, rfl⟩ | ⟨u, ts, ht, hu⟩
  · exact ⟨[], .none rfl rfl List.prefix_rfl⟩
  have hu' := htr u (by simp [ht])
  rcases hu with ⟨-, -, rfl⟩ | ⟨-, x, rest, hq, -, hp, rfl⟩ | ⟨-, -, -, rfl⟩ | ⟨-, -, hp, he⟩ | ⟨rfl, -⟩ | ⟨rfl, -⟩
  · exact ⟨[], .none rfl rfl List.prefix_rfl⟩
  · rw [commandEffect_ports]
    have hout : (commandEffect (decodeCmd x) s).out = s.out := commandStep_out (commandEffect_commandStep x s)
    exact ⟨[x], hq, (takeWord_settled x hp).symm, hout ▸ List.prefix_rfl⟩
  · exact ⟨[], .none rfl rfl List.prefix_rfl⟩
  · obtain ⟨tok, -, hout, -, hset⟩ := emitEffect_due (s := { s with turns := ts }) hp he
    exact ⟨[], .none (emitEffect_inQ (s := { s with turns := ts }) he) hset ⟨[tok], hout.symm⟩⟩
  · simp at hu'
  · simp at hu'

/-- Every run of offers and takings accepts words from the front of IN. -/
theorem accepted_run {k : Nat} (htr : ∀ u ∈ s.turns.take k, u = .accept ∨ u = .emit) (h : runsTo k s t) :
    ∃ xs, Accepted xs s t := by
  induction k generalizing s with
  | zero => exact runsTo_zero.mp h ▸ ⟨[], .none rfl rfl List.prefix_rfl⟩
  | succ k ih =>
    obtain ⟨u, hu, hrun⟩ := runsTo_succ.mp h
    have hhead : ∀ v ∈ s.turns.head?, v = .accept ∨ v = .emit := fun v hv => htr v (by
      obtain ⟨ts, hts⟩ := List.head?_eq_some_iff.mp hv
      simp [hts])
    have htail : ∀ v ∈ u.turns.take k, v = .accept ∨ v = .emit := fun v hv => htr v (by
      rw [step_turns hu] at hv
      cases hts : s.turns with
      | nil => simp [hts] at hv
      | cons w ws => exact List.mem_cons_of_mem w (by simpa [hts] using hv))
    obtain ⟨xs, hxs⟩ := accepted_step hhead hu
    obtain ⟨ys, hys⟩ := ih htail hrun
    exact ⟨xs ++ ys, hxs.trans hys⟩

/-- Settles O31: both runs accept words from the front of one list, so one run's accepted words extend the other's, and
both streams are parts of the stream of the longer list. -/
theorem oneStreamPerCommandSequence : Obligations.OneStreamPerCommandSequence := by
  unfold Obligations.OneStreamPerCommandSequence
  intro s t u ts us j k hts hus ht hu
  obtain ⟨xs, hxs⟩ := accepted_run (fun v hv => hts v (List.mem_of_mem_take hv)) ht
  obtain ⟨ys, hys⟩ := accepted_run (fun v hv => hus v (List.mem_of_mem_take hv)) hu
  have hx : xs <+: s.inQ := ⟨_, hxs.words.symm⟩
  have hy : ys <+: s.inQ := ⟨_, hys.words.symm⟩
  rcases List.prefix_or_prefix_of_prefix hx hy with hle | hle
  · exact List.prefix_or_prefix_of_prefix (hxs.out_prefix.trans (foldl_takeWord_out_mono hle _)) hys.out_prefix
  · exact List.prefix_or_prefix_of_prefix hxs.out_prefix (hys.out_prefix.trans (foldl_takeWord_out_mono hle _))

end Sys2Proof.Machine

namespace Sys2Proof.Machine

variable {s t : State}

/-! ## One conversion (R111) -/

/-- The settled block within a conversion that has raised no error, with `m` PAIRs still to come; with none to come it
has ended. -/
structure Awaiting (m : Nat) (d : State) : Prop where
  noError : d.errCode = .noError
  noErrLen : d.errLen = 0
  slot : d.slot = 6
  remain : d.remain.toNat = m
  mode : d.mode = if m = 0 then .idle else .active

theorem Awaiting.not_pending {m : Nat} (h : Awaiting m s) : s.pending = false := pending_eq_false.mpr fun _ => h.slot

theorem Awaiting.ne_error {m : Nat} (h : Awaiting m s) : s.mode ≠ .error := by
  rw [h.mode]
  split <;> nofun

/-- The block of an ended conversion, at rest, shows STATUS as after RESET (R138). -/
theorem Awaiting.status (h : Awaiting 0 s) : s.status = 0x00000010#32 := by
  have hm : s.mode = .idle := h.mode
  simp only [State.status, State.outValid, State.inReady, h.not_pending, hm, h.noError, h.noErrLen]
  rfl

/-- A block in ACTIVE without an error settles to one that awaits REMAIN PAIRs. -/
theorem awaiting_settled {m : Nat} (hm : s.mode = .active) (hcode : s.errCode = .noError) (hlen : s.errLen = 0)
    (hr : s.remain.toNat = m) (hclosing : s.Closing → m = 0) (hwaiting : s.slot = 6 → m ≠ 0) :
    Awaiting m s.settled where
  noError := hcode
  noErrLen := hlen
  slot := by
    cases hp : s.pending with
    | true => exact if_pos hp
    | false => exact (if_neg (by simp [hp])).trans (pending_eq_false.mp hp hm)
  remain := hr
  mode := by
    have hend : (s.pending = true ∧ s.Closing) ↔ m = 0 := by
      refine ⟨fun h => hclosing h.2, fun h0 => ⟨pending_eq_true.mpr ⟨hm, fun h6 => hwaiting h6 h0⟩, .inr ?_⟩⟩
      exact BitVec.eq_of_toNat_eq (hr.trans h0)
    exact if_congr hend rfl hm

/-- An even START outside a conversion awaits its N/2 PAIRs (R98). -/
theorem awaiting_start {n : Length} (hm : s.mode ≠ .active) (hn : n.toNat % 2 = 0) :
    Awaiting (n.toNat / 2) (takeWord s (cmdWord 0b01#2 n)) := by
  have hzero : n = 0 ↔ n.toNat / 2 = 0 := BitVec.toNat_eq.trans (by simp; omega)
  rw [takeWord, commandEffect_startWord hm hn]
  refine awaiting_settled rfl rfl rfl (pairCount_toNat n) (fun h => hzero.mp ?_) (fun h => hzero.not.mp ?_)
  · by_contra hne
    rcases h with h7 | h0
    · rw [beginConversion_slot, if_neg hne] at h7
      cases h7
    · exact pairCount_ne_zero hn hne h0
  · rintro rfl
    cases h

theorem takeWord_start_out {n : Length} (hm : s.mode ≠ .active) (hn : n.toNat % 2 = 0) :
    (takeWord s (cmdWord 0b01#2 n)).out = s.out ++ if n = 0 then [.fin] else [] := by
  rw [takeWord, commandEffect_startWord hm hn, settled_out, due_beginConversion, beginConversion_out]

theorem takeWord_start_first {n : Length} (hm : s.mode ≠ .active) (hn : n.toNat % 2 = 0) (h0 : n ≠ 0) :
    (takeWord s (cmdWord 0b01#2 n)).first = true := by
  have hp : (beginConversion n s).pending = false := pending_eq_false.mpr fun _ => if_neg h0
  rw [takeWord, commandEffect_startWord hm hn, settled_of_not_pending hp, beginConversion_first]

theorem awaiting_pair {m : Nat} (w : PairWord) (h : Awaiting (m + 1) s) :
    Awaiting m (takeWord s (cmdWord 0b10#2 w)) := by
  have hm : s.mode = .active := h.mode
  have hr : (loadPair w s).remain.toNat = m := by
    have := h.remain
    rw [loadPair_remain]
    bv_omega
  rw [takeWord, commandEffect_pairWord w hm]
  refine awaiting_settled hm h.noError h.noErrLen hr (fun hc => ?_) (fun h6 => ?_)
  · have := h.remain
    rw [(closing_loadPair w s).mp hc] at this
    exact Nat.succ.inj this.symm
  · exact absurd h6 (pending_eq_true.mp (pending_loadPair w hm)).2

theorem takeWord_pair_out {m : Nat} (w : PairWord) (h : Awaiting (m + 1) s) :
    (takeWord s (cmdWord 0b10#2 w)).out = s.out ++ ((if s.first = true then [] else [.char Config.hyphenCode]) ++
      (syllableTokens s.roms w ++ if m = 0 then [.fin] else [])) := by
  have hm : s.mode = .active := h.mode
  have hlast : s.remain = 1 ↔ m = 0 := by
    have := h.remain
    bv_omega
  rw [takeWord, commandEffect_pairWord w hm, settled_out, due_loadPair w hm, loadPair_out, if_congr hlast rfl rfl]

theorem takeWord_pair_first (w : PairWord) (hm : s.mode = .active) :
    (takeWord s (cmdWord 0b10#2 w)).first = false := by
  rw [takeWord, commandEffect_pairWord w hm]
  exact ite_self false

theorem commandStep_roms {i : Instr} (h : CommandStep s i t) : t.roms = s.roms := by cases h <;> rfl

theorem takeWord_roms (x : CmdWord) (d : State) : (takeWord d x).roms = d.roms :=
  (settled_roms _).trans (commandStep_roms (commandEffect_commandStep x d))

/-- The words of PAIR commands with the pair words `ws`. -/
abbrev pairCmds (ws : List PairWord) : List CmdWord := ws.map (cmdWord 0b10#2)

theorem awaiting_pairs {m : Nat} (ws : List PairWord) (h : Awaiting (ws.length + m) s) :
    Awaiting m ((pairCmds ws).foldl takeWord s) := by
  induction ws generalizing s with
  | nil => simpa using h
  | cons w ws ih =>
    rw [List.length_cons, Nat.add_right_comm] at h
    exact ih (awaiting_pair w h)

theorem tokensOf_append_hyphen (a b : List Byte) :
    tokensOf (a ++ Config.hyphenCode :: b) = a.map .char ++ .char Config.hyphenCode :: tokensOf b := by
  simp [tokensOf]

/-- All awaited PAIRs hand out the string of their pair words and END, after a hyphen if a syllable came before. -/
theorem pairs_out {ws : List PairWord} (hne : ws ≠ []) (h : Awaiting ws.length s) :
    ((pairCmds ws).foldl takeWord s).out = s.out ++ ((if s.first = true then [] else [.char Config.hyphenCode]) ++
      tokensOf (proquint s.roms ws)) := by
  induction ws generalizing s with
  | nil => exact absurd rfl hne
  | cons w ws ih =>
    rw [pairCmds, List.map_cons, List.foldl_cons]
    by_cases hws : ws = []
    · subst hws
      exact takeWord_pair_out w h
    · have hlen : ws.length ≠ 0 := mt List.length_eq_zero_iff.mp hws
      have hm : s.mode = .active := h.mode
      rw [ih hws (awaiting_pair w h), takeWord_pair_out w h, takeWord_pair_first w hm, takeWord_roms,
        proquint_cons w hws, tokensOf_append_hyphen, if_neg hlen]
      simp [syllableTokens]

/-- The words of the conversion of a byte sequence: START and the PAIRs (R77). -/
def conversionWords (bs : List Byte) : List CmdWord :=
  cmdWord 0b01#2 (BitVec.ofNat 16 bs.length) :: pairCmds (pairWords bs)

theorem commandWords_of_expandEncode {bs : List Byte} {cmds : List Instr} (hlen : bs.length < 65536)
    (heven : bs.length % 2 = 0) (h : expandEncode bs = some cmds) : commandWords cmds = conversionWords bs := by
  obtain rfl := Option.some.inj ((expandEncode_even hlen heven).symm.trans h)
  exact congrArg (List.cons (cmdWord 0b01#2 (BitVec.ofNat 16 bs.length))) (commandWords_pairCommands bs)

/-- From its START on, a conversion outside ACTIVE awaits some number of PAIRs, and so is without error. -/
theorem awaiting_of_prefix {bs : List Byte} {xs : List CmdWord} (hm : s.mode ≠ .active) (hlen : bs.length < 65536)
    (heven : bs.length % 2 = 0) (hxs : xs <+: conversionWords bs) (hne : xs ≠ []) :
    Awaiting (bs.length / 2 + 1 - xs.length) (xs.foldl takeWord s) := by
  obtain ⟨x, ys, rfl⟩ := List.exists_cons_of_ne_nil hne
  obtain ⟨rfl, hys⟩ := List.cons_prefix_cons.mp hxs
  obtain ⟨zs, hzs⟩ := hys
  obtain ⟨us, vs, hws, rfl, rfl⟩ := List.map_eq_append_iff.mp hzs.symm
  have hn : (BitVec.ofNat 16 bs.length).toNat = bs.length := Nat.mod_eq_of_lt hlen
  have hstart := awaiting_start (n := BitVec.ofNat 16 bs.length) hm (by rw [hn]; exact heven)
  have hcount : bs.length / 2 = us.length + vs.length := by
    rw [← pairWords_length, hws, List.length_append]
  rw [hn, hcount] at hstart
  have hleft : bs.length / 2 + 1 - (cmdWord 0b01#2 (BitVec.ofNat 16 bs.length) :: pairCmds us).length = vs.length := by
    rw [List.length_cons, List.length_map, hcount]
    omega
  rw [hleft]
  exact awaiting_pairs us hstart

/-- The whole conversion ends idle, and its stream is the string of its bytes and END. -/
theorem conversionWords_out {bs str : List Byte} (hm : s.mode ≠ .active) (hlen : bs.length < 65536)
    (henc : encodeBytes s.roms bs = some str) :
    ((conversionWords bs).foldl takeWord s).out = s.out ++ tokensOf str := by
  obtain ⟨heven, rfl⟩ := encodeBytes_eq_some.mp henc
  have hn : (BitVec.ofNat 16 bs.length).toNat = bs.length := Nat.mod_eq_of_lt hlen
  have heven' : (BitVec.ofNat 16 bs.length).toNat % 2 = 0 := hn.symm ▸ heven
  have hzero : BitVec.ofNat 16 bs.length = 0 ↔ bs = [] := by
    rw [BitVec.toNat_eq, hn, ← List.length_eq_zero_iff]
    rfl
  rw [conversionWords, List.foldl_cons]
  by_cases hbs : bs = []
  · subst hbs
    exact takeWord_start_out hm heven'
  · have hne := hzero.not.mpr hbs
    have hstart := awaiting_start hm heven'
    rw [hn, ← pairWords_length] at hstart
    rw [pairs_out (pairWords_ne_nil heven hbs) hstart, takeWord_start_out hm heven', takeWord_start_first hm heven' hne,
      takeWord_roms, if_neg hne, if_pos rfl, List.append_nil, List.nil_append]

/-- Outside ACTIVE nothing is due, and the settled block is outside ACTIVE too. -/
theorem settled_mode_of_not_active (hm : s.mode ≠ .active) : s.settled.mode = s.mode := by
  rw [settled_of_not_pending (pending_eq_false.mpr fun h => absurd h hm)]

theorem settled_out_of_not_active (hm : s.mode ≠ .active) : s.settled.out = s.out := by
  rw [settled_of_not_pending (pending_eq_false.mpr fun h => absurd h hm)]

/-- While only words of one conversion have been accepted, what has left and what is due is part of its stream. -/
theorem Accepted.conversion_prefix {bs str : List Byte} {xs : List CmdWord} (h : Accepted xs s t)
    (hm : s.mode ≠ .active) (hlen : bs.length < 65536) (henc : encodeBytes s.roms bs = some str)
    (hxs : xs <+: conversionWords bs) : t.out ++ t.due <+: s.out ++ tokensOf str := by
  have hall : ((conversionWords bs).foldl takeWord s.settled).out = s.out ++ tokensOf str := by
    have hm' : s.settled.mode ≠ .active := (settled_mode_of_not_active hm).symm ▸ hm
    rw [conversionWords_out hm' hlen henc, settled_out_of_not_active hm]
  rw [← hall, ← settled_out, h.settled]
  exact foldl_takeWord_out_mono hxs _

/-- Once a word of a conversion has been accepted, and none after it, there is no error. -/
theorem Accepted.conversion_noError {bs : List Byte} {xs : List CmdWord} (h : Accepted xs s t)
    (hm : s.mode ≠ .active) (hlen : bs.length < 65536) (heven : bs.length % 2 = 0)
    (hxs : xs <+: conversionWords bs) (hne : xs ≠ []) : t.mode ≠ .error ∧ t.errCode = .noError := by
  have haw := awaiting_of_prefix ((settled_mode_of_not_active hm).symm ▸ hm) hlen heven hxs hne
  rw [← h.settled] at haw
  refine ⟨fun herr => haw.ne_error ?_, haw.noError⟩
  rw [settled_mode_of_not_active (herr ▸ nofun), herr]

/-- Once all words of a conversion have been accepted and nothing is pending, its whole stream has left, and the block
is idle. -/
theorem Accepted.conversion_end {bs str : List Byte} (h : Accepted (conversionWords bs) s t) (hm : s.mode ≠ .active)
    (hlen : bs.length < 65536) (henc : encodeBytes s.roms bs = some str) (hp : t.pending = false) :
    t.out = s.out ++ tokensOf str ∧ t.mode = .idle ∧ t.status = 0x00000010#32 := by
  have hm' : s.settled.mode ≠ .active := (settled_mode_of_not_active hm).symm ▸ hm
  obtain ⟨heven, -⟩ := encodeBytes_eq_some.mp henc
  have hlength : (conversionWords bs).length = bs.length / 2 + 1 := by
    rw [conversionWords, List.length_cons, List.length_map, pairWords_length]
  have hset := h.settled
  have haw := awaiting_of_prefix hm' hlen heven List.prefix_rfl (List.cons_ne_nil _ _)
  have hout := conversionWords_out hm' hlen henc
  rw [hlength, Nat.sub_self] at haw
  rw [← hset, settled_of_not_pending hp] at haw hout
  exact ⟨hout.trans (congrArg (· ++ _) (settled_out_of_not_active hm)), haw.mode, haw.status⟩

/-- Settles O28: up to a later word, the words accepted are the first of the conversion's, and they fix the stream. -/
theorem conversionEmitsTheProquint : Obligations.ConversionEmitsTheProquint := by
  unfold Obligations.ConversionEmitsTheProquint
  intro k s t bs str cmds rest _ hm hbound henc hexp hq htr hrun hrest
  have hlen : bs.length < 65536 := Nat.lt_of_le_of_lt hbound (by decide)
  obtain ⟨heven, -⟩ := encodeBytes_eq_some.mp henc
  rw [commandWords_of_expandEncode hlen heven hexp] at hq
  obtain ⟨xs, h⟩ := accepted_run (fun v hv => htr v (List.mem_of_mem_take hv)) hrun
  obtain ⟨zs, hzs⟩ := hrest
  have hwords : conversionWords bs = xs ++ zs := by
    have := hq.symm.trans h.words
    rw [← hzs, ← List.append_assoc] at this
    exact List.append_cancel_right this
  have hxs : xs <+: conversionWords bs := ⟨zs, hwords.symm⟩
  obtain ⟨sent, hsent⟩ := h.out
  refine ⟨sent, ?_, hsent.symm, fun hne => ?_, fun hall hp => ?_⟩
  · have hpre := (List.prefix_append t.out t.due).trans (h.conversion_prefix hm hlen henc hxs)
    rw [← hsent] at hpre
    exact (List.prefix_append_right_inj s.out).mp hpre
  · refine h.conversion_noError hm hlen heven hxs ?_
    rintro rfl
    exact hne h.words.symm
  · have hz : zs = [] := List.append_left_eq_self.mp (hzs.trans hall)
    rw [hz, List.append_nil] at hwords
    obtain ⟨hout, hidle, hstatus⟩ := Accepted.conversion_end (hwords ▸ h) hm hlen henc hp
    exact ⟨List.append_cancel_left (hsent.trans hout), hidle, hstatus⟩

/-! ## Progress where host and consumer move in turn (R111, R146) -/

/-- Nothing is pending and no word is offered: no ACCEPT and no EMIT is enabled (R97, R107). -/
def State.AtRest (s : State) : Prop := s.pending = false ∧ s.inQ = []

/-- From `s` to `t`, at least `n` words have been accepted and tokens handed out. -/
def Progress (n : Nat) (s t : State) : Prop := s.out.length + t.inQ.length + n ≤ t.out.length + s.inQ.length

theorem Progress.trans {m n : Nat} {u : State} (h : Progress m s u) (h' : Progress n u t) : Progress (m + n) s t := by
  unfold Progress at *
  omega

theorem Progress.mono {m n : Nat} (hmn : m ≤ n) (h : Progress n s t) : Progress m s t :=
  (Nat.add_le_add_left hmn _).trans h

/-- The consumer's turn hands out a token if one is pending, and takes no word. -/
theorem progress_emit (hq : t.inQ = s.inQ) (hdue : t.due = s.due.tail) (hset : t.settled = s.settled) :
    Progress (min s.due.length 1) s t := by
  have hout := congrArg (fun d : State => d.out.length) hset
  simp only [settled_out, List.length_append, hdue, List.length_tail] at hout
  unfold Progress
  rw [hq]
  omega

/-- One round of the host and the consumer: a block at rest stays so, and any other makes progress. -/
theorem runsTo_round {ts : List Turn} (hr : s.wasReset = true) (ht : s.turns = .accept :: .emit :: ts) :
    ∃ t, runsTo 2 s t ∧ t.wasReset = true ∧ t.turns = ts ∧ (s.AtRest → t.AtRest) ∧ (s.AtRest ∨ Progress 1 s t) := by
  by_cases hheld : s.inQ = [] ∨ s.pending = true
  · have haccept := step_accept_held ht (hheld.imp_right fun hp => ⟨hr, hp⟩)
    obtain ⟨t, hemit, htt, htq, htr, hdue, hset⟩ := step_emit_due (s := { s with turns := .emit :: ts }) rfl hr
    replace hdue : t.due = s.due.tail := hdue
    refine ⟨t, ⟨_, haccept, _, hemit, rfl⟩, htr, htt, fun ⟨hp, hq⟩ => ⟨?_, htq.trans hq⟩, ?_⟩
    · rw [← due_eq_nil htr, hdue, due_of_not_pending hp, List.tail_nil]
    · cases hp : s.pending with
      | false => exact .inl ⟨hp, hheld.resolve_right (by simp [hp])⟩
      | true =>
        have hne : s.due ≠ [] := fun h => by simp [(due_eq_nil hr).mp h] at hp
        have hlen : 1 ≤ min s.due.length 1 := Nat.le_min.mpr ⟨List.length_pos_iff.mpr hne, Nat.le_refl 1⟩
        exact .inr ((progress_emit htq hdue hset).mono hlen)
  · obtain ⟨hq, hp⟩ := not_or.mp hheld
    obtain ⟨x, rest, hx⟩ := List.exists_cons_of_ne_nil hq
    have hout : (commandEffect (decodeCmd x) s).out = s.out := commandStep_out (commandEffect_commandStep x s)
    have hur := (commandStep_wasReset (commandEffect_commandStep x s)).trans hr
    have haccept := step_accept_effect ht hx hr (by simpa using hp)
    obtain ⟨t, hemit, htt, htq, htr, hdue, hset⟩ :=
      step_emit_due (s := { commandEffect (decodeCmd x) s with turns := .emit :: ts, inQ := rest }) rfl hur
    have hfirst : Progress 1 s { commandEffect (decodeCmd x) s with turns := .emit :: ts, inQ := rest } := by
      simp [Progress, hout, hx, Nat.add_assoc]
    exact ⟨t, ⟨_, haccept, _, hemit, rfl⟩, htr, htt, fun h => absurd h.2 hq,
      .inr ((hfirst.trans (progress_emit htq hdue hset)).mono (Nat.le_add_right 1 _))⟩

/-- After `n` rounds the block is at rest, or `n` words and tokens have crossed the ports. -/
theorem runsTo_rounds {n : Nat} {ts : List Turn} (hr : s.wasReset = true)
    (ht : s.turns = (List.replicate n [Turn.accept, Turn.emit]).flatten ++ ts) :
    ∃ t, runsTo (2 * n) s t ∧ t.wasReset = true ∧ t.turns = ts ∧ (t.AtRest ∨ Progress n s t) := by
  induction n generalizing ts with
  | zero => exact ⟨s, rfl, hr, ht, .inr (Nat.le_refl _)⟩
  | succ n ih =>
    rw [List.replicate_succ', List.flatten_concat, List.append_assoc] at ht
    obtain ⟨u, hu, hur, hut, hprog⟩ := ih ht
    obtain ⟨t, htrun, htr, htt, hstay, hmore⟩ := runsTo_round hur hut
    refine ⟨t, runsTo_add hu htrun, htr, htt, ?_⟩
    rcases hmore with hrest | hmore
    · exact .inl (hstay hrest)
    · exact hprog.imp hstay (fun h => h.trans hmore)

theorem pairCommands_length : ∀ bs : List Byte, (pairCommands bs).length = (pairWords bs).length
  | [] | [_] => rfl
  | _ :: _ :: rest => congrArg Nat.succ (pairCommands_length rest)

theorem commandWords_length {bs : List Byte} {cmds : List Instr} (hlen : bs.length < 65536)
    (heven : bs.length % 2 = 0) (h : expandEncode bs = some cmds) : (commandWords cmds).length = cmds.length := by
  rw [commandWords_of_expandEncode hlen heven h]
  obtain rfl := Option.some.inj ((expandEncode_even hlen heven).symm.trans h)
  rw [conversionWords, List.length_cons, List.length_map, List.length_cons, pairCommands_length]

/-- Settles O29: after a round for each word and token, the block is at rest or everything has crossed the ports, and
then it is at rest too. -/
theorem conversionCompletes : Obligations.ConversionCompletes := by
  unfold Obligations.ConversionCompletes
  intro s bs str cmds ts rounds hr hm hbound henc hexp hq hrounds ht
  have hlen : bs.length < 65536 := Nat.lt_of_le_of_lt hbound (by decide)
  obtain ⟨heven, -⟩ := encodeBytes_eq_some.mp henc
  have hqlen : s.inQ.length = cmds.length := hq ▸ commandWords_length hlen heven hexp
  obtain ⟨t, hrun, htr, htt, hprog⟩ := runsTo_rounds hr ht
  have htransfers : ∀ v ∈ s.turns.take (2 * rounds), v = .accept ∨ v = .emit := by
    rw [ht, List.take_left' (by simp [Nat.mul_comm])]
    simp
  obtain ⟨xs, h⟩ := accepted_run htransfers hrun
  rw [commandWords_of_expandEncode hlen heven hexp] at hq
  have hxs : xs <+: conversionWords bs := ⟨t.inQ, (hq.symm.trans h.words).symm⟩
  have hrest : t.AtRest := by
    refine hprog.elim id fun hprog => ?_
    have hle := (h.conversion_prefix hm hlen henc hxs).length_le
    unfold Progress at hprog
    simp only [List.length_append] at hle
    have hdue : t.due = [] := List.length_eq_zero_iff.mp (by omega)
    exact ⟨(due_eq_nil htr).mp hdue, List.length_eq_zero_iff.mp (by omega)⟩
  obtain ⟨hp, htq⟩ := hrest
  have hall : xs = conversionWords bs := by
    rw [← hq, h.words, htq, List.append_nil]
  obtain ⟨hout, hidle, hstatus⟩ := Accepted.conversion_end (hall ▸ h) hm hlen henc hp
  exact ⟨t, hrun, hout, hidle, htq, htt, hstatus⟩

/-! ## How many tokens a conversion has (R112) -/

theorem count_hyphen_syllable {r : Roms} (hr : r.legal) (w : PairWord) :
    (syllable r w).count Config.hyphenCode = 0 := by
  rw [List.count_eq_zero]
  intro h
  simp only [syllable, mapFields, List.mem_cons, List.not_mem_nil, or_false] at h
  rcases h with h | h | h | h | h
  · exact cons_ne_hyphen hr _ h.symm
  · exact vow_ne_hyphen hr _ h.symm
  · exact cons_ne_hyphen hr _ h.symm
  · exact vow_ne_hyphen hr _ h.symm
  · exact cons_ne_hyphen hr _ h.symm

/-- The hyphens of a string are its separators, one fewer than its syllables (R91, R112). -/
theorem count_hyphen_proquint {r : Roms} (hr : r.legal) (ws : List PairWord) :
    (proquint r ws).count Config.hyphenCode = ws.length - 1 := by
  induction ws with
  | nil => rfl
  | cons w ws ih =>
    by_cases hws : ws = []
    · subst hws
      exact count_hyphen_syllable hr w
    · have hpos := List.length_pos_iff.mpr hws
      rw [proquint_cons w hws, List.count_append, count_hyphen_syllable hr w, List.count_cons_self, ih,
        List.length_cons]
      omega

theorem count_fin_tokensOf (str : List Byte) : (tokensOf str).count .fin = 1 := by
  have h : (str.map Token.char).count .fin = 0 := by simp [List.count_eq_zero]
  rw [tokensOf, List.count_append, h]
  rfl

theorem count_char_tokensOf (c : Byte) (str : List Byte) : (tokensOf str).count (.char c) = str.count c := by
  rw [tokensOf, List.count_append, List.count_map_of_injective _ _ fun _ _ h => by cases h; rfl]
  rfl

/-- Settles O30: END is no character, and the string has a syllable for each pair with a hyphen between two. -/
theorem conversionTokenCounts : Obligations.ConversionTokenCounts := by
  unfold Obligations.ConversionTokenCounts
  intro r bs str hr henc
  obtain ⟨heven, rfl⟩ := encodeBytes_eq_some.mp henc
  refine ⟨count_fin_tokensOf _, fun hbs => hbs ▸ rfl, fun hbs => ⟨?_, ?_⟩⟩
  · have hpos := List.length_pos_iff.mpr hbs
    rw [tokensOf, List.length_append, List.length_map, proquint_length, pairWords_length, List.length_singleton]
    omega
  · rw [← pairWords_length]
    exact (count_char_tokensOf Config.hyphenCode _).trans (count_hyphen_proquint hr _)

end Sys2Proof.Machine

namespace Sys2Proof.Machine

variable {s t : State} {i : Instr}

/-! ## Every step completes, or waits for the first RESET (R117, R127, R135) -/

theorem step_accept_unreset {ts : List Turn} (ht : s.turns = .accept :: ts) (hr : s.wasReset = false)
    (hq : s.inQ ≠ []) : step s = .refused .beforeFirstReset :=
  (step_turn ht).trans (acceptTurn_unreset (s := { s with turns := ts }) hr hq)

theorem step_emit_unreset {ts : List Turn} (ht : s.turns = .emit :: ts) (hr : s.wasReset = false) :
    step s = .refused .beforeFirstReset :=
  (step_turn ht).trans (emitTurn_unreset (s := { s with turns := ts }) hr)

/-- Everything a step can answer. -/
theorem step_answers (s : State) :
    (∃ t, step s = .next t) ∨ (s.wasReset = false ∧ step s = .refused .beforeFirstReset) := by
  rcases ht : s.turns with _ | ⟨u, ts⟩
  · exact .inl ⟨_, step_wait ht⟩
  cases u with
  | accept =>
    rcases hq : s.inQ with _ | ⟨x, rest⟩
    · exact .inl ⟨_, step_accept_held ht (.inl hq)⟩
    cases hr : s.wasReset with
    | false => exact .inr ⟨rfl, step_accept_unreset ht hr (by simp [hq])⟩
    | true =>
      cases hp : s.pending with
      | false => exact .inl ⟨_, step_accept ht hq hr hp⟩
      | true => exact .inl ⟨_, step_accept_held ht (.inr ⟨hr, hp⟩)⟩
  | emit =>
    cases hr : s.wasReset with
    | false => exact .inr ⟨rfl, step_emit_unreset ht hr⟩
    | true =>
      obtain ⟨t, h, -⟩ := step_emit_due ht hr
      exact .inl ⟨t, h⟩
  | reset => exact .inl ⟨_, step_reset ht⟩
  | withdraw => exact .inl ⟨_, step_withdraw ht⟩

theorem tokenStep_wasReset (h : TokenStep s i t) : t.wasReset = s.wasReset := by cases h <;> rfl

/-- No step undoes the first RESET. -/
theorem step_wasReset (hr : s.wasReset = true) (h : step s = .next t) : t.wasReset = true :=
  step_keeps (P := fun s => s.wasReset = true) (fun _ _ _ hr => hr)
    (fun _ _ _ hc _ hr => (commandStep_wasReset hc).trans hr) (fun _ _ _ ht _ hr => (tokenStep_wasReset ht).trans hr)
    (fun _ _ => rfl) hr h

/-- Settles O44: the two answers of a step, of which only the refusal needs a block before its first RESET. -/
theorem everyStepCompletesAfterReset : Obligations.EveryStepCompletesAfterReset := by
  unfold Obligations.EveryStepCompletesAfterReset
  refine ⟨fun s hr => ?_, fun s f hf => ?_, fun s r hf => ?_⟩
  · obtain ⟨t, h⟩ := (step_answers s).resolve_right fun h => absurd (hr.symm.trans h.1) nofun
    exact ⟨t, h, step_wasReset hr h⟩
  · rcases step_answers s with ⟨t, h⟩ | ⟨-, h⟩ <;> exact absurd (h.symm.trans hf) nofun
  · rcases step_answers s with ⟨t, h⟩ | ⟨hunreset, h⟩
    · exact absurd (h.symm.trans hf) nofun
    · exact ⟨Host.Outcome.refused.inj (hf.symm.trans h), hunreset⟩

/-! ## Which steps raise an error (R117 to R119) -/

/-- R118's causes, each with its code and its length. -/
theorem errorCause_listed {e : Err} {info : Length} (h : ErrorCause s i e info) :
    ((∃ d, i = .illegalOp00 d ∨ i = .illegalOp11 d) ∧ e.code = .illegalCommand ∧ info = 0) ∨
    ((∃ n, i = .start n) ∧ s.mode = .active ∧ e.code = .protocolError ∧ info = 0) ∨
    ((∃ b0 b1, i = .pair b0 b1) ∧ s.mode ≠ .active ∧ e.code = .protocolError ∧ info = 0) ∨
    (∃ n, i = .start n ∧ s.mode ≠ .active ∧ n.toNat % 2 = 1 ∧ e.code = .invalidInputLength ∧ info = n) := by
  cases h with
  | illegalOp00 d => exact .inl ⟨⟨d, .inl rfl⟩, rfl, rfl⟩
  | illegalOp11 d => exact .inl ⟨⟨d, .inr rfl⟩, rfl, rfl⟩
  | startInActive n hm => exact .inr (.inl ⟨⟨n, rfl⟩, hm, rfl, rfl⟩)
  | pairOutsideActive b0 b1 hm => exact .inr (.inr (.inl ⟨⟨b0, b1, rfl⟩, hm, rfl, rfl⟩))
  | startOdd n hm hn => exact .inr (.inr (.inr ⟨_, rfl, hm, hn, rfl, rfl⟩))

/-- A command that leads to ERROR has raised: the two other things a command does lead to ACTIVE. -/
theorem commandStep_error (h : CommandStep s i t) (hm : t.mode = .error) :
    ∃ e info, ErrorCause s i e info ∧ t = raise e info s := by
  cases h with
  | raised hc => exact ⟨_, _, hc, rfl⟩
  | began n => cases hm
  | loaded b0 b1 hactive => exact absurd (hactive.symm.trans hm) nofun

/-- Handing out a token keeps STATE at ACTIVE, or ends the conversion. -/
theorem emitEffect_mode_ne_error (hp : s.pending = true) (h : EmitEffect s t) : t.mode ≠ .error := by
  have hm : s.mode ≠ .error := (pending_eq_true.mp hp).1 ▸ nofun
  rcases h with ⟨-, rfl⟩ | ⟨-, -, c, -, rfl⟩ | ⟨-, rfl⟩
  · exact hm
  · exact hm
  · nofun

/-- Settles O41: only an accepted command enters ERROR, or writes the error registers and stays there. -/
theorem errorsComeOnlyFromAcceptedCommands : Obligations.ErrorsComeOnlyFromAcceptedCommands := by
  unfold Obligations.ErrorsComeOnlyFromAcceptedCommands
  intro s t h hm hnew
  have hchanged : ¬(t.mode = s.mode ∧ t.errCode = s.errCode ∧ t.errLen = s.errLen) := by
    rintro ⟨hmode, hcode, hlen⟩
    rcases hnew with hn | hn | hn
    · exact hn (hmode.symm.trans hm)
    · exact hn hcode
    · exact hn hlen
  rcases step_cases h with ⟨-, rfl⟩ | ⟨u, ts, ht, hu⟩
  · exact absurd ⟨rfl, rfl, rfl⟩ hchanged
  rcases hu with ⟨-, -, rfl⟩ | ⟨rfl, x, rest, hq, -, hp, rfl⟩ | ⟨-, -, -, rfl⟩ | ⟨-, -, hp, he⟩ | ⟨-, rfl⟩ | ⟨-, rfl⟩
  · exact absurd ⟨rfl, rfl, rfl⟩ hchanged
  · obtain ⟨e, info, hc, hraise⟩ := commandStep_error (commandEffect_commandStep x _) hm
    exact ⟨x, rest, ts, e.code, info, ht, hq, inReady_eq_true.mpr hp, hraise,
      errorCause_listed (s := { s with turns := ts, inQ := rest }) hc⟩
  · exact absurd ⟨rfl, rfl, rfl⟩ hchanged
  · exact absurd hm (emitEffect_mode_ne_error (s := { s with turns := ts }) hp he)
  · cases hm
  · exact absurd ⟨rfl, rfl, rfl⟩ hchanged

/-! ## In ERROR (R123, R125) -/

theorem not_pending_of_error (hm : s.mode = .error) : s.pending = false :=
  pending_eq_false.mpr fun hactive => absurd (hm.symm.trans hactive) nofun

/-- With nothing pending, the instruction that a step executes is the command on the port, and it has its effect. -/
theorem step_of_executes (hp : s.pending = false) (he : s.executes = some i) :
    step s = .next { commandEffect i s with turns := s.turns.tail, inQ := s.inQ.tail } := by
  unfold State.executes at he
  split at he
  next ts ht =>
    split at he
    next hready =>
      obtain ⟨x, hx, rfl⟩ := Option.map_eq_some_iff.mp he
      obtain ⟨rest, hq⟩ := List.head?_eq_some_iff.mp hx
      rw [step_accept_effect ht hq (Bool.and_eq_true_iff.mp hready).1 hp, ht, hq, List.tail_cons, List.tail_cons]
    next => cases he
  next => simp [pendingInstr_none hp] at he
  next => cases he

/-- Settles O42: an even START and RESET are the steps that leave ERROR, and the other commands raise there. -/
theorem errorIsLeftOnlyByEvenStartOrReset : Obligations.ErrorIsLeftOnlyByEvenStartOrReset := by
  unfold Obligations.ErrorIsLeftOnlyByEvenStartOrReset
  intro s t hm h
  have hidle := not_pending_of_error hm
  have hactive : s.mode ≠ .active := hm ▸ nofun
  have heffect {i : Instr} (he : s.executes = some i) :
      t = { commandEffect i s with turns := s.turns.tail, inQ := s.inQ.tail } :=
    Host.Outcome.next.inj (h.symm.trans (step_of_executes hidle he))
  refine ⟨fun hleft => ?_, fun b0 b1 he => ?_, fun d he => ?_, fun n he hn => ?_⟩
  · cases step_kind h with
    | idle => exact absurd hm hleft
    | @command _ x rest hq hp he hc =>
      generalize decodeCmd x = i at he hc
      cases hc with
      | raised hc => exact absurd rfl hleft
      | began n _ hn => exact .inr ⟨n, he, hn, rfl, rfl, rfl⟩
      | loaded b0 b1 hm' => exact absurd hm' hactive
    | token hp he ht => exact absurd (hp.symm.trans hidle) nofun
    | reset ts ht => exact .inl ⟨ts, ht⟩
  · rw [heffect he, commandEffect, pairEffect_outside _ hactive]
    exact ⟨rfl, rfl, rfl⟩
  · rcases he with he | he <;> rw [heffect he] <;> exact ⟨rfl, rfl, rfl⟩
  · rw [heffect he, commandEffect, startEffect_odd hactive hn]
    exact ⟨rfl, rfl, rfl⟩

/-- STATUS in ERROR (R33): ERR_LEN above bit 16, then ERR_CODE between in_ready = 1 and STATE = 2. -/
theorem status_toNat_of_error (hm : s.mode = .error) :
    s.status.toNat = s.errLen.toNat * 0x10000 + (s.errCode.code.toNat * 4 + 0x12) := by
  have hlow : s.status = s.errLen.setWidth 32 <<< 16 ||| BitVec.ofNat 32 (s.errCode.code.toNat * 4 + 0x12) := by
    simp only [State.status, State.outValid, State.inReady, not_pending_of_error hm, hm, BitVec.or_assoc]
    cases s.errCode <;> rfl
  have hlen := s.errLen.isLt
  have hcode := s.errCode.code.isLt
  rw [hlow, BitVec.toNat_or, BitVec.toNat_shiftLeft, BitVec.toNat_setWidth, BitVec.toNat_ofNat,
    Nat.mod_eq_of_lt (by omega), Nat.shiftLeft_eq, Nat.mod_eq_of_lt (by omega), Nat.mod_eq_of_lt (by omega),
    ← Nat.shiftLeft_eq, ← Nat.shiftLeft_add_eq_or_of_lt (by omega), Nat.shiftLeft_eq]

/-- An error other than the odd length has ERR_LEN = 0, so STATUS shows its code alone. -/
theorem status_of_error_without_length (hm : s.mode = .error) (hlen : s.ErrLenOk)
    (hcode : s.errCode ≠ .invalidInputLength) : s.status.toNat = s.errCode.code.toNat * 4 + 0x12 := by
  have h0 : s.errLen = 0 := by
    by_contra h
    exact hcode (hlen.1 h)
  rw [status_toNat_of_error hm, h0]
  exact Nat.zero_add _

/-- Settles O43: the error registers of R36, read through STATUS. -/
theorem errorsShowInStatus : Obligations.ErrorsShowInStatus := by
  unfold Obligations.ErrorsShowInStatus
  intro s hs hm
  obtain ⟨-, hcoded, hlen, -, -, -⟩ := hs
  refine ⟨fun hcode => ?_, fun hcode => ?_, fun hcode => ?_, ?_⟩
  · rw [status_toNat_of_error hm, hcode]
    rfl
  · refine BitVec.eq_of_toNat_eq ?_
    rw [status_of_error_without_length hm hlen (hcode ▸ nofun), hcode]
    rfl
  · refine BitVec.eq_of_toNat_eq ?_
    rw [status_of_error_without_length hm hlen (hcode ▸ nofun), hcode]
    rfl
  · cases hcode : s.errCode with
    | noError => exact absurd hm (hcoded.mp hcode)
    | invalidInputLength => exact .inl rfl
    | protocolError => exact .inr (.inl rfl)
    | illegalCommand => exact .inr (.inr rfl)

end Sys2Proof.Machine

namespace Sys2Proof.Machine

variable {s t : State} {i : Instr}

/-! ## The ROMs stand (R31, R136) -/

/-- Everything that executing an instruction can do: it waits, or it is an accepted command or the pending token. -/
theorem exec_cases (h : exec i s = .next t) : t = s ∨ CommandStep s i t ∨ TokenStep s i t := by
  have haccept {a : State} (hc : CommandStep s i a) (h : onAccept s a = .next t) : t = s ∨ CommandStep s i t := by
    obtain ⟨-, ⟨-, rfl⟩ | ⟨-, rfl⟩⟩ := onAccept_next h
    · exact .inr hc
    · exact .inl rfl
  have hemit {due : Bool} {a : State} (hk : due = true → TokenStep s i a) (h : onEmit s due a = .next t) :
      t = s ∨ TokenStep s i t := by
    obtain ⟨-, ⟨-, hdue, rfl⟩ | ⟨-, rfl⟩⟩ := onEmit_next h
    · exact .inr (hk hdue)
    · exact .inl rfl
  cases i with
  | start n => exact (haccept (startEffect_commandStep n s) h).imp_right .inl
  | pair b0 b1 => exact (haccept (pairEffect_commandStep b0 b1 s) h).imp_right .inl
  | illegalOp00 d => exact (haccept (.raised (.illegalOp00 d)) h).imp_right .inl
  | illegalOp11 d => exact (haccept (.raised (.illegalOp11 d)) h).imp_right .inl
  | hyphen => exact (hemit (fun hk => .hyphen (beq_iff_eq.mp hk)) h).imp_right .inr
  | char c =>
    refine (hemit (fun hc => ?_) h).imp_right .inr
    have hc : charmux s.roms s.word s.slot = some c := beq_iff_eq.mp hc
    have hslot := charmux_isSome s.roms s.word s.slot
    rw [hc] at hslot
    obtain ⟨h1, h5⟩ := of_decide_eq_true hslot.symm
    exact .char c h1 h5 hc
  | endTok => exact (hemit (fun hk => .fin (beq_iff_eq.mp hk)) h).imp_right .inr

theorem tokenStep_roms (h : TokenStep s i t) : t.roms = s.roms := by cases h <;> rfl

theorem step_roms (h : step s = .next t) : t.roms = s.roms :=
  step_keeps (P := fun u => u.roms = s.roms) (fun _ _ _ hs => hs) (fun _ _ _ hc _ hs => (commandStep_roms hc).trans hs)
    (fun _ _ _ ht _ hs => (tokenStep_roms ht).trans hs) (fun _ hs => hs) rfl h

/-- Settles O14: no command, no token and no RESET has the ROMs among its writes. -/
theorem romsAreNeverWritten : Obligations.RomsAreNeverWritten := by
  unfold Obligations.RomsAreNeverWritten
  refine ⟨fun s t h => step_roms h, fun i s t h => ?_, rfl⟩
  rcases exec_cases h with rfl | hc | ht
  · rfl
  · exact commandStep_roms hc
  · exact tokenStep_roms ht

end Sys2Proof.Machine

namespace Sys2Proof.Machine

variable {s : State}

/-! ## STATUS outside ERROR (R138, R143) -/

/-- With the error registers clear, STATUS shows the handshake and STATE (R33). -/
theorem status_of_noError (hcode : s.errCode = .noError) (hlen : s.errLen = 0) :
    s.status = (if s.pending then 0x20#32 else 0x10#32) ||| s.mode.code.setWidth 32 := by
  simp only [State.status, State.outValid, State.inReady, hcode, hlen]
  cases s.pending <;> rfl

/-- Outside ERROR, R36 (2) and (3) leave the error registers clear. -/
theorem noError_of_inv (hs : s.Inv) (hm : s.mode ≠ .error) : s.errCode = .noError ∧ s.errLen = 0 := by
  obtain ⟨-, hcoded, ⟨hlen, -⟩, -, -, -⟩ := hs
  have hcode : s.errCode = .noError := hcoded.mpr hm
  refine ⟨hcode, ?_⟩
  by_contra hne
  exact absurd (hcode.symm.trans (hlen hne)) nofun

theorem status_of_inv (hs : s.Inv) (hm : s.mode ≠ .error) :
    s.status = (if s.pending then 0x20#32 else 0x10#32) ||| s.mode.code.setWidth 32 := by
  obtain ⟨hcode, hlen⟩ := noError_of_inv hs hm
  exact status_of_noError hcode hlen

theorem status_of_idle (hs : s.Inv) (hm : s.mode = .idle) : s.status = 0x00000010#32 := by
  have hp : s.pending = false := pending_eq_false.mpr fun hactive => absurd (hm.symm.trans hactive) nofun
  rw [status_of_inv hs (hm ▸ nofun), hp, hm]
  rfl

/-- Settles O48: STATE and SLOT tell whether a token is pending, and STATUS shows that and STATE. -/
theorem statusDuringAConversion : Obligations.StatusDuringAConversion := by
  unfold Obligations.StatusDuringAConversion
  refine fun s hs => ⟨fun hm hk => ?_, fun hm hk => ?_, fun hm => ?_⟩
  · rw [status_of_inv hs (hm ▸ nofun), pending_eq_true.mpr ⟨hm, hk⟩, hm]
    rfl
  · rw [status_of_inv hs (hm ▸ nofun), pending_eq_false.mpr fun _ => hk, hm]
    rfl
  · exact status_of_idle hs hm

/-! ## RESET, and the window before the first one (R134, R135, R138) -/

theorem status_resetBlock (s : State) : (resetBlock s).status = 0x00000010#32 := status_of_idle (inv_resetBlock s) rfl

/-- Settles O45: the reset state, register by register. -/
theorem resetStateAsTheSpecSays : Obligations.ResetStateAsTheSpecSays := by
  unfold Obligations.ResetStateAsTheSpecSays
  exact ⟨rfl, rfl, rfl, rfl, rfl, rfl, rfl, rfl, status_of_idle (by decide) rfl⟩

/-- Settles O46: the step is `resetBlock`, whatever the state. -/
theorem resetStepFromAnyState : Obligations.ResetStepFromAnyState := by
  unfold Obligations.ResetStepFromAnyState
  exact fun s ts ht => ⟨_, step_reset ht, rfl, rfl, rfl, rfl, rfl, rfl, rfl, status_resetBlock _, inv_resetBlock _,
    rfl, rfl, rfl, rfl⟩

/-- Both handshakes refuse before the first RESET, whatever the instruction. -/
theorem exec_unreset (i : Instr) (hr : s.wasReset = false) : exec i s = .refused .beforeFirstReset := by
  cases i with
  | start | pair | illegalOp00 | illegalOp11 => exact onAccept_unreset hr
  | hyphen | char | endTok => exact onEmit_unreset hr

/-- Settles O47: every move but RESET goes through a handshake that refuses. -/
theorem nothingRunsBeforeTheFirstReset : Obligations.NothingRunsBeforeTheFirstReset := by
  unfold Obligations.NothingRunsBeforeTheFirstReset
  exact fun s hr => ⟨(statusReadGivesTheStatusWord s).2 hr, fun i => exec_unreset i hr,
    fun _ ht => step_emit_unreset ht hr, fun _ _ _ ht hq => step_accept_unreset ht hr (by simp [hq]),
    fun _ ht => ⟨_, step_reset ht, rfl, rfl⟩⟩

end Sys2Proof.Machine

namespace Sys2Proof.Machine

variable {s : State}

/-! ## Turns in which the block waits (R141, R142) -/

/-- The turn `u` is taken and changes nothing else, whatever turns follow. -/
def State.WaitsAt (s : State) (u : Turn) : Prop :=
  ∀ ts, step { s with turns := u :: ts } = .next { s with turns := ts }

/-- A run of turns in which the block waits changes nothing but the turns taken. -/
theorem runsTo_waits {k : Nat} (h : ∀ u ∈ s.turns.take k, s.WaitsAt u) :
    runsTo k s { s with turns := s.turns.drop k } := by
  induction k generalizing s with
  | zero => rfl
  | succ k ih =>
    rcases ht : s.turns with _ | ⟨u, ts⟩
    · have hrest := ih (s := s) (by simp [ht])
      rw [ht, List.drop_nil] at hrest
      exact ⟨s, step_wait ht, hrest⟩
    · rw [ht, List.take_succ_cons] at h
      have hu : step s = .next { s with turns := ts } := by
        have := h u List.mem_cons_self ts
        rwa [← ht] at this
      exact ⟨_, hu, ih (s := { s with turns := ts }) fun v hv => h v (List.mem_cons_of_mem u hv)⟩

theorem waitsAt_accept (h : s.inQ = [] ∨ (s.wasReset = true ∧ s.pending = true)) : s.WaitsAt .accept :=
  fun ts => step_accept_held (s := { s with turns := .accept :: ts }) rfl h

theorem waitsAt_emit (hr : s.wasReset = true) (hp : s.pending = false) : s.WaitsAt .emit :=
  fun ts => step_emit_idle (s := { s with turns := .emit :: ts }) rfl hr hp

/-- Settles O50: with a token pending the block waits at every offer. -/
theorem backpressureLosesNothing : Obligations.BackpressureLosesNothing := by
  unfold Obligations.BackpressureLosesNothing
  intro k s ts hr hp ht
  have htake : s.turns.take k = List.replicate k .accept := by rw [ht, List.take_left' List.length_replicate]
  have hdrop : s.turns.drop k = ts := by rw [ht, List.drop_left' List.length_replicate]
  have hrun := runsTo_waits (k := k) (s := s) fun u hu => by
    rw [htake] at hu
    exact List.eq_of_mem_replicate hu ▸ waitsAt_accept (.inr ⟨hr, hp⟩)
  rwa [hdrop] at hrun

/-- Settles O51: with nothing offered and nothing pending the block waits at every offer and every taking. -/
theorem missingPairsHangTheBlock : Obligations.MissingPairsHangTheBlock := by
  unfold Obligations.MissingPairsHangTheBlock
  intro k s hr _ hk hq htr
  refine runsTo_waits fun u hu => ?_
  rcases htr u (List.mem_of_mem_take hu) with rfl | rfl
  · exact waitsAt_accept (.inl hq)
  · exact waitsAt_emit hr (pending_eq_false.mpr fun _ => hk)

/-! ## Seven takings settle the block (R140, R142) -/

/-- The block once everything due has left, with its words still on IN and the turns `ts` to come. -/
def State.drained (ts : List Turn) (s : State) : State := { s.settled with turns := ts, inQ := s.inQ }

/-- Seven takings hand out all that is due and take no word. -/
theorem runsTo_drained {ts : List Turn} (hr : s.wasReset = true) (ht : s.turns = List.replicate 7 .emit ++ ts) :
    runsTo 7 s (s.drained ts) := by
  obtain ⟨t, hrun, hp, hq, hts, -⟩ := runsTo_takings hr ht (due_length_le_seven s)
  have htakings : ∀ u ∈ s.turns.take 7, u = .accept ∨ u = .emit := by
    rw [ht, List.take_left' List.length_replicate]
    exact fun u hu => .inr (List.eq_of_mem_replicate hu)
  obtain ⟨xs, h⟩ := accepted_run htakings hrun
  obtain rfl : xs = [] := List.append_left_eq_self.mp (h.words.symm.trans hq.symm)
  have hset : { t with inQ := [], turns := [] } = s.settled := (settled_of_not_pending hp).symm.trans h.settled
  rw [State.drained, ← hset, ← hts, ← hq]
  exact hrun

/-- After a conversion's last syllable the block is idle; before it, it awaits a PAIR. -/
theorem drained_mode (ts : List Turn) (hp : s.pending = true) :
    (s.drained ts).mode = if s.Closing then .idle else .active := by
  by_cases hc : s.Closing
  · rw [State.drained, settled_of_closing hp hc, if_pos hc]
  · rw [State.drained, settled_of_pending_not_closing hp hc, if_neg hc]
    exact (pending_eq_true.mp hp).1

theorem drained_not_pending (ts : List Turn) (hp : s.pending = true) : (s.drained ts).pending = false :=
  pending_eq_false.mpr fun _ => if_pos hp

/-- Settles O52: the drained block has nothing pending and is idle or in its conversion. -/
theorem sevenTakingsDrainTheBlock : Obligations.SevenTakingsDrainTheBlock := by
  unfold Obligations.SevenTakingsDrainTheBlock
  intro s ts hr hp ht
  have hm : (s.drained ts).mode ≠ .error := by
    rw [drained_mode ts hp]
    split <;> nofun
  exact ⟨_, runsTo_drained hr ht, drained_not_pending ts hp, hm, rfl, rfl, List.prefix_append s.out s.due⟩

/-! ## A START that was held (R140) -/

/-- With R36 (5), END is due exactly when no further PAIR is expected. -/
theorem closing_iff_remain (hend : s.EndIsLast) : s.Closing ↔ s.remain = 0 :=
  or_iff_right_of_imp fun h7 => (hend h7).1

/-- The host's turn with a START on the port and nothing pending. -/
theorem step_start {n : Length} {rest : List CmdWord} {ts : List Turn} (ht : s.turns = .accept :: ts)
    (hq : s.inQ = cmdWord 0b01#2 n :: rest) (hr : s.wasReset = true) (hp : s.pending = false) :
    step s = .next { startEffect n s with turns := ts, inQ := rest } := by
  rw [step_accept_effect ht hq hr hp, decodeCmd_of_op01 (opField_cmdWord _ n), dataField_cmdWord, commandEffect]

/-- Settles O49: seven takings drain the block, and the START is judged by the STATE that they leave. -/
theorem heldStartIsJudgedWhenAccepted : Obligations.HeldStartIsJudgedWhenAccepted := by
  unfold Obligations.HeldStartIsJudgedWhenAccepted
  intro s n rest ts hr hs hp hq ht
  obtain ⟨-, -, -, -, hend, -⟩ := hs
  have hmode : (s.drained (.accept :: ts)).mode = if s.remain = 0 then .idle else .active :=
    (drained_mode _ hp).trans (if_congr (closing_iff_remain hend) rfl rfl)
  have hidle (h0 : s.remain = 0) : (s.drained (.accept :: ts)).mode ≠ .active := by
    rw [hmode, if_pos h0]
    nofun
  have hstart := step_start (s := s.drained (.accept :: ts)) rfl hq hr (drained_not_pending _ hp)
  refine ⟨_, runsTo_add (k := 1) (runsTo_drained hr ht) (runsTo_succ.mpr ⟨_, hstart, rfl⟩), rfl, fun h0 hn => ?_,
    fun h0 hn => ?_, fun h0 => ?_⟩
  · rw [startEffect_even (hidle h0) hn]
    exact ⟨rfl, rfl, pairCount_toNat n⟩
  · rw [startEffect_odd (hidle h0) hn]
    exact ⟨rfl, rfl, rfl⟩
  · rw [startEffect_active n (hmode.trans (if_neg h0))]
    exact ⟨rfl, rfl⟩

end Sys2Proof.Machine
